-- ==== Sys2Proof/Word.lean ====
section
/-! DEFINITION. The engine's word type. Every register, memory cell, operand and instruction byte is one
unsigned byte (00_scope.md R6 `WORD`, R9). -/

namespace Sys2Proof

/-- A byte: an unsigned value in 0..255, bit 0 the least significant (R8, R9). -/
abbrev Byte := BitVec 8

end Sys2Proof
end

