-- ==== Sys2Proof/Syntax.lean ====
section
/-! DEFINITION. The 18 instructions of 30_encoding.md R66, one constructor per row of spec/opcode_table.json.
An operand is the WHOLE operand byte: a register operand is not masked, and 8..255 is a legal encoding that
raises InvalidRegister when the instruction runs (R68, R70). -/

namespace Sys2Proof

/-- The instruction names, in the order of R66. A descriptor of the Dispatcher carries one (40_execution_loop.md R80). -/
inductive Mnemonic where
  | hlt | ldi | prn | push | pop
  | add | sub | mul | div | mod | and | or | xor | shl | shr
  | inc | dec | not
  deriving DecidableEq, Repr

/-- An instruction: `ra` is operand A (the byte at pc+1), `rb` or `imm` operand B (the byte at pc+2) (R60, R67). -/
inductive Instr where
  | hlt
  | ldi (ra imm : Byte)
  | prn (ra : Byte)
  | push (ra : Byte)
  | pop (ra : Byte)
  | add (ra rb : Byte)
  | sub (ra rb : Byte)
  | mul (ra rb : Byte)
  | div (ra rb : Byte)
  | mod (ra rb : Byte)
  | and (ra rb : Byte)
  | or (ra rb : Byte)
  | xor (ra rb : Byte)
  | shl (ra rb : Byte)
  | shr (ra rb : Byte)
  | inc (ra : Byte)
  | dec (ra : Byte)
  | not (ra : Byte)
  deriving DecidableEq, Repr

end Sys2Proof
end

