-- ==== Sys2Proof/WellFormed.lean ====
section
/-! DEFINITION. Which instructions are well formed: every register operand names one of R0..R7, as the
assembler's grammar has it (30_encoding.md R72) and as 10_state.md R21 calls an index valid. The decoder also gives
instructions that are not (any byte may follow an opcode, R70); they raise InvalidRegister when they run. -/

namespace Sys2Proof

/-- A register index is valid only when it is in 0..7 (10_state.md R21). -/
def regByteOk (b : Byte) : Bool := decide (b.toNat < 8)

/-- The operand bytes an instruction uses as register indices, operand A first. LDI's operand B is an
immediate and is not one of them (60_exceptions.md R152). -/
def Instr.regOperands : Instr → List Byte
  | .hlt => []
  | .ldi ra _ => [ra]
  | .prn ra => [ra]
  | .push ra => [ra]
  | .pop ra => [ra]
  | .add ra rb => [ra, rb]
  | .sub ra rb => [ra, rb]
  | .mul ra rb => [ra, rb]
  | .div ra rb => [ra, rb]
  | .mod ra rb => [ra, rb]
  | .and ra rb => [ra, rb]
  | .or ra rb => [ra, rb]
  | .xor ra rb => [ra, rb]
  | .shl ra rb => [ra, rb]
  | .shr ra rb => [ra, rb]
  | .inc ra => [ra]
  | .dec ra => [ra]
  | .not ra => [ra]

/-- Every register operand names a register. -/
def Instr.wellFormed (i : Instr) : Bool := i.regOperands.all regByteOk

end Sys2Proof
end

