-- ==== Sys2Proof/Decode.lean ====
section
/-! DEFINITION. The opcode byte's fields, the Dispatcher, the decoder (total on any bytes) and, after it, the
encoder (30_encoding.md, 40_execution_loop.md R80). -/

namespace Sys2Proof

/-- Bits 7:6 of an opcode byte: the number of operand bytes (30_encoding.md R61, R62). -/
def operandCountOf (b : Byte) : Nat := (b.extractLsb' 6 2).toNat

/-- Bit 5 of an opcode byte: the instruction is an ALU operation (R61, R63). -/
def isAlu (b : Byte) : Bool := b.getLsbD 5

/-- Bits 4:0 of an opcode byte: the operation identifier, which selects the operation only together with bits 7:5
(R61, R65). -/
def opIdOf (b : Byte) : BitVec 5 := b.extractLsb' 0 5

/-- An entry of the Dispatcher (40_execution_loop.md R80). -/
structure Descriptor where
  mnemonic : Mnemonic
  operandCount : Nat
  isAlu : Bool
  deriving DecidableEq, Repr

/-- `OPCODE_MAP`: the 18 rows of 30_encoding.md R66. The byte values are the spec's decision D1 (log entry 5). -/
def opcodeMap : List (Byte × Descriptor) :=
  [ (0x01, ⟨.hlt, 0, false⟩),
    (0x82, ⟨.ldi, 2, false⟩),
    (0x47, ⟨.prn, 1, false⟩),
    (0x45, ⟨.push, 1, false⟩),
    (0x46, ⟨.pop, 1, false⟩),
    (0xA0, ⟨.add, 2, true⟩),
    (0xA1, ⟨.sub, 2, true⟩),
    (0xA2, ⟨.mul, 2, true⟩),
    (0xA3, ⟨.div, 2, true⟩),
    (0xA4, ⟨.mod, 2, true⟩),
    (0xA8, ⟨.and, 2, true⟩),
    (0xAA, ⟨.or, 2, true⟩),
    (0xAB, ⟨.xor, 2, true⟩),
    (0xAC, ⟨.shl, 2, true⟩),
    (0xAD, ⟨.shr, 2, true⟩),
    (0x65, ⟨.inc, 1, true⟩),
    (0x66, ⟨.dec, 1, true⟩),
    (0x69, ⟨.not, 1, true⟩) ]

/-- The four instruction formats (30_encoding.md R67). -/
inductive Format where
  | f0 | f1r | f2rr | f2ri
  deriving DecidableEq, Repr

/-- Each instruction's format (R66, R67). -/
def Mnemonic.format : Mnemonic → Format
  | .hlt => .f0
  | .prn | .push | .pop | .inc | .dec | .not => .f1r
  | .add | .sub | .mul | .div | .mod | .and | .or | .xor | .shl | .shr => .f2rr
  | .ldi => .f2ri

/-- A format's length in bytes (R67). -/
def Format.length : Format → Nat
  | .f0 => 1
  | .f1r => 2
  | .f2rr | .f2ri => 3

/-- The ALU operations, as R66's ALU column has them. -/
def Mnemonic.isAlu : Mnemonic → Bool
  | .hlt | .ldi | .prn | .push | .pop => false
  | .add | .sub | .mul | .div | .mod | .and | .or | .xor | .shl | .shr | .inc | .dec | .not => true

/-- The descriptor R66 fixes for each instruction, whatever its byte: an instruction's length is one more than its
operand count (R64). -/
def Mnemonic.descriptor (m : Mnemonic) : Descriptor := ⟨m, m.format.length - 1, m.isAlu⟩

/-- The encoding contract a map must meet (00_scope.md R7): each row's count and ALU flag are the byte's bits and the
ones R66 fixes for its mnemonic, no byte and no mnemonic stands twice, and there are exactly 18 rows. A map that breaks
it is refused at configuration. -/
def opcodeMapOk (m : List (Byte × Descriptor)) : Bool :=
  m.all (fun row =>
      decide (operandCountOf row.1 = row.2.operandCount) && (isAlu row.1 == row.2.isAlu) &&
        decide (row.2 = row.2.mnemonic.descriptor)) &&
    decide ((m.map (·.1)).Nodup) && decide ((m.map (·.2.mnemonic)).Nodup) && decide (m.length = 18)

/-- The Dispatcher: from an opcode byte to its descriptor, or absent (40_execution_loop.md R80, keyed by the whole
byte, 30_encoding.md R65). -/
def dispatch (b : Byte) : Option Descriptor := opcodeMap.lookup b

/-- The instruction of a mnemonic and its operand bytes, `none` when there are not as many as it takes (R66, R67). -/
def buildInstr : Mnemonic → List Byte → Option Instr
  | .hlt, [] => some .hlt
  | .ldi, [a, b] => some (.ldi a b)
  | .prn, [a] => some (.prn a)
  | .push, [a] => some (.push a)
  | .pop, [a] => some (.pop a)
  | .add, [a, b] => some (.add a b)
  | .sub, [a, b] => some (.sub a b)
  | .mul, [a, b] => some (.mul a b)
  | .div, [a, b] => some (.div a b)
  | .mod, [a, b] => some (.mod a b)
  | .and, [a, b] => some (.and a b)
  | .or, [a, b] => some (.or a b)
  | .xor, [a, b] => some (.xor a b)
  | .shl, [a, b] => some (.shl a b)
  | .shr, [a, b] => some (.shr a b)
  | .inc, [a] => some (.inc a)
  | .dec, [a] => some (.dec a)
  | .not, [a] => some (.not a)
  | _, _ => none

/-- What a decoder of a byte sequence answers (30_encoding.md R71). -/
inductive Decoded where
  /-- A legal instruction, and the bytes after it. -/
  | ok (i : Instr) (rest : List Byte)
  /-- The first byte is outside the opcode map (R69). -/
  | unknownOpcode (b : Byte)
  /-- The instruction's bytes run past the end: `offset` is the offset of the first one missing. -/
  | truncated (offset : Nat)
  deriving DecidableEq, Repr

/-- The decoder, total on any byte sequence (R71). The count of operand bytes is the byte's field, not the
descriptor's (R62), and an unknown byte is rejected before any operand (R64, R69). -/
def decode : List Byte → Decoded
  | [] => .truncated 0
  | op :: rest =>
    match dispatch op with
    | none => .unknownOpcode op
    | some d =>
      if operandCountOf op ≤ rest.length then
        match buildInstr d.mnemonic (rest.take (operandCountOf op)) with
        | some i => .ok i (rest.drop (operandCountOf op))
        | none => .unknownOpcode op
      else .truncated (rest.length + 1)

/-- The name of an instruction. -/
def Instr.mnemonic : Instr → Mnemonic
  | .hlt => .hlt
  | .ldi _ _ => .ldi
  | .prn _ => .prn
  | .push _ => .push
  | .pop _ => .pop
  | .add _ _ => .add
  | .sub _ _ => .sub
  | .mul _ _ => .mul
  | .div _ _ => .div
  | .mod _ _ => .mod
  | .and _ _ => .and
  | .or _ _ => .or
  | .xor _ _ => .xor
  | .shl _ _ => .shl
  | .shr _ _ => .shr
  | .inc _ => .inc
  | .dec _ => .dec
  | .not _ => .not

/-- The operand bytes of an instruction, operand A first (30_encoding.md R60). -/
def Instr.operands : Instr → List Byte
  | .hlt => []
  | .ldi ra imm => [ra, imm]
  | .prn ra => [ra]
  | .push ra => [ra]
  | .pop ra => [ra]
  | .add ra rb => [ra, rb]
  | .sub ra rb => [ra, rb]
  | .mul ra rb => [ra, rb]
  | .div ra rb => [ra, rb]
  | .mod ra rb => [ra, rb]
  | .and ra rb => [ra, rb]
  | .or ra rb => [ra, rb]
  | .xor ra rb => [ra, rb]
  | .shl ra rb => [ra, rb]
  | .shr ra rb => [ra, rb]
  | .inc ra => [ra]
  | .dec ra => [ra]
  | .not ra => [ra]

/-- The opcode byte of each mnemonic, written out from R66's column of bit fields (bits 7:6, 5, 4:0). -/
def Mnemonic.opcode : Mnemonic → Byte
  | .hlt => 0b00000001
  | .ldi => 0b10000010
  | .prn => 0b01000111
  | .push => 0b01000101
  | .pop => 0b01000110
  | .add => 0b10100000
  | .sub => 0b10100001
  | .mul => 0b10100010
  | .div => 0b10100011
  | .mod => 0b10100100
  | .and => 0b10101000
  | .or => 0b10101010
  | .xor => 0b10101011
  | .shl => 0b10101100
  | .shr => 0b10101101
  | .inc => 0b01100101
  | .dec => 0b01100110
  | .not => 0b01101001

/-- The encoder: the opcode byte, then the operand bytes at ascending addresses (30_encoding.md R60; 20_memory.md R43). -/
def encode (i : Instr) : List Byte := i.mnemonic.opcode :: i.operands

/-- The three bytes of a word whose bit 0 is the least significant bit of the first byte, with every bit from
`nbits` up read as 0: the longest instruction is three bytes long (30_encoding.md R60). -/
def wordBytes (nbits w : Nat) : List Byte :=
  [ BitVec.ofNat 8 (w % 2 ^ nbits),
    BitVec.ofNat 8 (w % 2 ^ nbits / 256),
    BitVec.ofNat 8 (w % 2 ^ nbits / 65536) ]

/-- The instruction the decoder reads from a row of the opcode table given as a number. -/
def decodeTableWord (nbits w : Nat) : Option Instr :=
  match decode (wordBytes nbits w) with
  | .ok i _ => some i
  | .unknownOpcode _ => none
  | .truncated _ => none

end Sys2Proof
end

