-- ==== Sys2Proof/Config.lean ====
section
/-! DEFINITION. The parameters of 00_scope.md R6 at the values this hardware takes. `OPCODE_MAP` is
`Sys2Proof.opcodeMap` (Decode.lean), `POP_EMPTY` is `Sys2Proof.Machine.popEmpty` (Machine/Stack.lean), and
`HostStop` is an input of the step (log entry 2). -/

namespace Sys2Proof.Config

/-- `MEM_SIZE`: the memory has the addresses 0..255 (R6). -/
def memSize : Nat := 256

/-- `IM_INDEX`: register 5, the Interrupt-Mask alias, inert (R6; 10_state.md R24). -/
def imIndex : Fin 8 := 5

/-- `IS_INDEX`: register 6, the Interrupt-Status alias, inert (R6; 10_state.md R24). -/
def isIndex : Fin 8 := 6

/-- `SP_INDEX`: register 7, the stack pointer (R6; 10_state.md R25). -/
def spIndex : Fin 8 := 7

/-- `SP_RESET`: the default top of the stack (R6). -/
def spReset : Byte := 0xF4

/-- `LOAD_BASE`: the first address of the program image (R6). -/
def loadBase : Nat := 0

/-- `PC_RESET`: the entry point (R6). -/
def pcReset : Byte := 0

/-- What an address that `State.mem` does not list reads as: every cell is 0 at reset (10_state.md R36). -/
def unlistedByte : Byte := 0

end Sys2Proof.Config
end

