-- ==== Sys2Proof/Machine/State.lean ====
section
/-! DEFINITION. The state of one engine instance, the tuple at the head of 10_state.md, with the Reporter's
events and the host's answers beside it as plain data (log entries 1 and 2), and the state after reset (R36). -/

namespace Sys2Proof.Machine

/-- `run_state` (10_state.md R29). Only `running` has a next step. -/
inductive RunState where
  | running | halted | stopped | faulted
  deriving DecidableEq, Repr

/-- The six fault kinds of the engine (60_exceptions.md R150). Each is an outcome INSIDE the machine, a next state
in Faulted (Halted for `divisionByZero`): see `raise` and `haltDz`. -/
inductive FaultKind where
  | unknownOpcode | addressOutOfBounds | invalidRegister | divisionByZero | stackUnderflow | unsupportedOperation
  deriving DecidableEq, Repr

/-- What the engine sends to the Reporter (40_execution_loop.md R96). -/
inductive Event where
  /-- `Print(v)`, sent by PRN (42_control_io.md R132). -/
  | print (v : Byte)
  /-- `Diag(kind, info)`, sent by a fault or DivisionByZero (60_exceptions.md R160). -/
  | diag (kind : FaultKind) (info : BitVec 9)
  deriving DecidableEq, Repr

/-- Memory as the list of its cells that are not 0, by rising address (`Memory.wf`). -/
abbrev Memory := List Host.Cell

/-- One engine instance. -/
structure State where
  /-- The register file x[0]..x[7] (R20): R5 is IM and R6 is IS, both inert (R24), and R7 is SP (R25). -/
  regs : Vector Byte 8
  /-- The program counter (R27). -/
  pc : Byte
  /-- The 256 memory cells (R34; 20_memory.md R40). -/
  mem : Memory
  /-- The instruction register (R28). -/
  ir : Byte
  /-- The run state (R29). -/
  runState : RunState
  /-- The terminal cause (R30), `none` being code 0, no fault. -/
  cause : Option FaultKind
  /-- The value recorded with the cause (R30). -/
  info : BitVec 9
  /-- The Reporter's stream so far, oldest event first (40_execution_loop.md R96). DESIGN CHOICE, safe: log entry 1. -/
  events : List Event
  /-- What HostStop will answer at the coming steps, `false` once used up (40_execution_loop.md R90). DESIGN CHOICE,
  safe: log entry 2. -/
  hostStop : List Bool
  deriving DecidableEq, Repr

/-- The canonical form of a memory: addresses strictly rising and below 256, and no cell that holds what an
unlisted address reads as. -/
abbrev Memory.wf (m : Memory) : Prop :=
  m.Pairwise (fun c d => c.1 < d.1) ∧ ∀ c ∈ m, c.1 < Config.memSize ∧ c.2 ≠ Config.unlistedByte

/-- Why a step has no next state. -/
inductive Fault where
  /-- Raised by `step` alone, when the run state is not Running: no step is enabled there (40_execution_loop.md R93).
  Safe: the model stops where the engine has stopped. Log entry 3. -/
  | notRunning (rs : RunState)
  deriving DecidableEq, Repr

/-- Why an instruction has no meaning in the model. -/
inductive Refusal where
  /-- Raised only by an arm of `exec` whose instruction has no meaning yet. None is left. Safe: the model stops. -/
  | notModelled (mnemonic : String)
  deriving DecidableEq, Repr

/-- The engine after construction, before the Loader writes the program (10_state.md R36; 70_reset_and_hazards.md R180). -/
def State.reset : State :=
  { regs := #v[0, 0, 0, 0, 0, 0, 0, Config.spReset]
    pc := Config.pcReset
    mem := []
    ir := 0
    runState := .running
    cause := none
    info := 0
    events := []
    hostStop := [] }

end Sys2Proof.Machine
end

