-- ==== Sys2Proof/Machine/Ops.lean ====
section
/-! DEFINITION. The named operations over registers, memory, the Reporter and the run state: the primitives of
00_scope.md R10, taking a fault (60_exceptions.md R155, R156; there is no return from one, R159), and the stages of a
step that lie around the execution of the instruction (40_execution_loop.md R81 to R84, R87, R88, R90). -/

namespace Sys2Proof.Machine

/-- Widen a byte to 9 bits with zero (00_scope.md R9). -/
def zext9 (v : Byte) : BitVec 9 := v.setWidth 9

/-- Read register `r`: `x[r]` (10_state.md R20). -/
def State.reg (s : State) (r : Fin 8) : Byte := s.regs[r]

/-- Write register `r`: `x[r] <- v` stores `v mod 256`, whatever integer `v` is, and never faults (10_state.md R22). -/
def State.setReg (s : State) (r : Fin 8) (v : Int) : State :=
  { s with regs := s.regs.set r (BitVec.ofInt 8 v) }

/-- The byte at address `a`. An address the list does not hold reads as 0 (20_memory.md R49; 10_state.md R36, R37). -/
def Memory.read : Memory → Nat → Byte
  | [], _ => Config.unlistedByte
  | c :: m, a => if c.1 = a then c.2 else Memory.read m a

/-- Put a cell in its place among cells of other addresses. -/
def Memory.insert (a : Nat) (v : Byte) : Memory → Memory
  | [] => [(a, v)]
  | c :: m => if a < c.1 then (a, v) :: c :: m else c :: Memory.insert a v m

/-- Set the byte at address `a` and keep the canonical form: a byte of 0 is not listed (20_memory.md R41). -/
def Memory.write (m : Memory) (a : Nat) (v : Byte) : Memory :=
  let others : Memory := m.filter (fun c => c.1 ≠ a)
  if v = Config.unlistedByte then others else Memory.insert a v others

/-- Set the bytes from address `a` up, in order. -/
def Memory.load (m : Memory) (a : Nat) : List Byte → Memory
  | [] => m
  | v :: vs => Memory.load (m.write a v) (a + 1) vs

/-- `MemRead(a, 1)`, `none` for an address above 255, which is never reduced (20_memory.md R40). -/
def State.memRead (s : State) (a : Nat) : Option Byte :=
  if a < Config.memSize then some (s.mem.read a) else none

/-- `MemWrite(a, 1, v)`, `none` for an address above 255 (20_memory.md R41). -/
def State.memWrite (s : State) (a : Nat) (v : Byte) : Option State :=
  if a < Config.memSize then some { s with mem := s.mem.write a v } else none

/-- `emit E`: append an event to the Reporter's stream (40_execution_loop.md R96). -/
def State.emit (s : State) (e : Event) : State := { s with events := s.events ++ [e] }

/-- `raise K(info)`, the entry to a fatal fault (60_exceptions.md R155). The pc is not written. -/
def State.raise (s : State) (k : FaultKind) (info : BitVec 9) : State :=
  { s with runState := .faulted, cause := some k, info := info }.emit (.diag k info)

/-- `halt_dz(info)`, the DivisionByZero outcome (60_exceptions.md R156). The pc and the registers are not written. -/
def State.haltDz (s : State) (info : BitVec 9) : State :=
  { s with runState := .halted, cause := some .divisionByZero, info := info }.emit (.diag .divisionByZero info)

/-- An access outside 0..255 raises AddressOutOfBounds with the address (60_exceptions.md R151). -/
def State.raiseOutOfBounds (s : State) (a : Nat) : State :=
  s.raise .addressOutOfBounds (BitVec.ofNat 9 a)

/-- The run ends because the host asks (40_execution_loop.md R90). -/
def State.stopByHost (s : State) : State :=
  { s with runState := .stopped, cause := none, info := 0 }

/-- The value HostStop answers at this step: `false` by default (00_scope.md R6; 40_execution_loop.md R90). -/
def State.hostStopNow (s : State) : Bool := s.hostStop.headD false

/-- HostStop is asked once per step. -/
def State.hostStopAsked (s : State) : State := { s with hostStop := s.hostStop.tail }

/-- Step 1: `ir <- MemRead(pc, 1)`. The pc has 8 bits, so the address is in range and the read cannot fault
(40_execution_loop.md R81). -/
def State.fetchOpcode (s : State) : State := { s with ir := s.mem.read s.pc.toNat }

/-- Read `n` bytes from address `a` up, or answer the first address out of range (40_execution_loop.md R84). -/
def State.readBytes (s : State) : Nat → Nat → Except Nat (List Byte)
  | _, 0 => .ok []
  | a, n + 1 =>
    match s.memRead a with
    | none => .error a
    | some b =>
      match s.readBytes (a + 1) n with
      | .ok bs => .ok (b :: bs)
      | .error e => .error e

/-- What steps 2 to 4 give: an instruction to execute, or the fault they raise. -/
inductive Fetched where
  | instr (i : Instr)
  | unknownOpcode (b : Byte)
  | outOfBounds (a : Nat)
  deriving DecidableEq, Repr

/-- Steps 2 to 4: decode the count, look the byte up, and read exactly as many operand bytes as the count says
(40_execution_loop.md R82, R83, R84). An unknown byte is reported before any operand is read. -/
def State.fetchOperands (s : State) : Fetched :=
  match dispatch s.ir with
  | none => .unknownOpcode s.ir
  | some _ =>
    match s.readBytes (s.pc.toNat + 1) (operandCountOf s.ir) with
    | .error a => .outOfBounds a
    | .ok ops =>
      match decode (s.ir :: ops) with
      | .ok i _ => .instr i
      | .unknownOpcode b => .unknownOpcode b
      | .truncated k => .outOfBounds (s.pc.toNat + k)

/-- The bytes from the pc to the end of memory: what a decoder at the pc is given (30_encoding.md R71). -/
def State.bytesAtPc (s : State) : List Byte :=
  (List.range (Config.memSize - s.pc.toNat)).map (fun k => s.mem.read (s.pc.toNat + k))

/-- Step 6, the advance. It does nothing unless the run state is still Running; it raises AddressOutOfBounds when
the next pc would be above 255, and the writes of the instruction stand (40_execution_loop.md R87, R88). -/
def State.advance (s : State) : State :=
  if s.runState = .running then
    if 255 < s.pc.toNat + operandCountOf s.ir + 1 then s.raiseOutOfBounds (s.pc.toNat + operandCountOf s.ir + 1)
    else { s with pc := BitVec.ofNat 8 (s.pc.toNat + operandCountOf s.ir + 1) }
  else s

/-- Store bytes where the next step fetches its instruction, and let that step fetch: the run state is Running and
HostStop answers false. Bytes that would lie past address 255 are not stored (log entry 7). -/
def State.placeAtPc (s : State) (bytes : List Byte) : State :=
  { s with
    mem := s.mem.load s.pc.toNat (bytes.take (Config.memSize - s.pc.toNat))
    runState := .running
    hostStop := match s.hostStop with
      | [] => []
      | _ :: later => false :: later }

end Sys2Proof.Machine
end

