-- ==== Sys2Proof/Machine/Operands.lean ====
section
/-! DEFINITION. The two operand forms (30_encoding.md R68): a register index, which is the whole byte and is
checked when the instruction executes, and an immediate, which is the whole byte. -/

namespace Sys2Proof.Machine

/-- The register a byte names, `none` for 8..255. The byte is not masked to 3 bits (R68; 10_state.md R21). -/
def regOperand (b : Byte) : Option (Fin 8) :=
  if h : b.toNat < 8 then some ⟨b.toNat, h⟩ else none

/-- Check a register operand and go on with the register, or raise InvalidRegister with the byte. The check comes
before the instruction writes anything (60_exceptions.md R152). -/
def State.withReg (s : State) (b : Byte) (go : Fin 8 → State) : State :=
  match regOperand b with
  | none => s.raise .invalidRegister (zext9 b)
  | some r => go r

/-- The value of an immediate operand: the whole byte, with no extension, scaling or shift (R68). -/
def immOperand (b : Byte) : Int := b.toNat

end Sys2Proof.Machine
end

