-- ==== Sys2Proof/Machine/Alu.lean ====
section
/-! DEFINITION. The ALU: the pure function of each operation, exact and before reduction; the ALU path
(41_alu.md R100); and the 13 ALU instructions (R101 to R113). No ALU instruction touches memory, a flag or, but for a
fault's diagnostic, the Reporter. -/

namespace Sys2Proof.Machine

/-- ADD: va + vb (R101). -/
def aluAdd (va vb : Byte) : Int := (va.toNat : Int) + (vb.toNat : Int)

/-- SUB: va - vb, a true subtraction (R102). -/
def aluSub (va vb : Byte) : Int := (va.toNat : Int) - (vb.toNat : Int)

/-- MUL: va * vb (R103). -/
def aluMul (va vb : Byte) : Int := (va.toNat : Int) * (vb.toNat : Int)

/-- DIV: floor(va / vb), unsigned; the path has ruled out vb = 0 (R104). -/
def aluDiv (va vb : Byte) : Int := ((va.toNat / vb.toNat : Nat) : Int)

/-- MOD: va - vb * floor(va / vb); the path has ruled out vb = 0 (R105). -/
def aluMod (va vb : Byte) : Int := (va.toNat : Int) - (vb.toNat : Int) * ((va.toNat / vb.toNat : Nat) : Int)

/-- AND, bit by bit (R106). -/
def aluAnd (va vb : Byte) : Int := (va &&& vb).toNat

/-- OR, bit by bit (R107). -/
def aluOr (va vb : Byte) : Int := (va ||| vb).toNat

/-- XOR, bit by bit (R108). -/
def aluXor (va vb : Byte) : Int := (va ^^^ vb).toNat

/-- SHL: va * 2^vb, by the whole amount vb (R109). -/
def aluShl (va vb : Byte) : Int := (va.toNat : Int) * 2 ^ vb.toNat

/-- SHR: floor(va / 2^vb), by the whole amount vb (R110). -/
def aluShr (va vb : Byte) : Int := ((va.toNat / 2 ^ vb.toNat : Nat) : Int)

/-- INC: va + 1 (R111). -/
def aluInc (va : Byte) : Int := (va.toNat : Int) + 1

/-- DEC: va - 1 (R112). -/
def aluDec (va : Byte) : Int := (va.toNat : Int) - 1

/-- NOT: 255 - va (R113). -/
def aluNot (va : Byte) : Int := 255 - (va.toNat : Int)

/-- The ALU's table: `none` for a mnemonic that is none of the 13 ALU operations (R115). A unary operation ignores
its second argument (R100). -/
def aluFn : Mnemonic → Option (Byte → Byte → Int)
  | .add => some aluAdd
  | .sub => some aluSub
  | .mul => some aluMul
  | .div => some aluDiv
  | .mod => some aluMod
  | .and => some aluAnd
  | .or => some aluOr
  | .xor => some aluXor
  | .shl => some aluShl
  | .shr => some aluShr
  | .inc => some (fun va _ => aluInc va)
  | .dec => some (fun va _ => aluDec va)
  | .not => some (fun va _ => aluNot va)
  | .hlt | .ldi | .prn | .push | .pop => none

/-- The operations that divide (R100). -/
def dividesBy : Mnemonic → Bool
  | .div | .mod => true
  | .hlt | .ldi | .prn | .push | .pop | .add | .sub | .mul | .and | .or | .xor | .shl | .shr | .inc | .dec | .not => false

/-- The ALU path after the register checks: UnsupportedOperation, then DivisionByZero, then the single write (R100). -/
def State.aluApply (s : State) (m : Mnemonic) (ra : Fin 8) (vb : Byte) : State :=
  match aluFn m with
  | none => s.raise .unsupportedOperation (zext9 s.ir)
  | some f => if dividesBy m && vb == 0 then s.haltDz (zext9 s.ir) else s.setReg ra (f (s.reg ra) vb)

/-- The ALU path of a binary instruction: operand A is checked before operand B, and both before the write (R100). -/
def State.aluBinary (s : State) (m : Mnemonic) (opA opB : Byte) : State :=
  s.withReg opA fun ra => s.withReg opB fun rb => s.aluApply m ra (s.reg rb)

/-- The ALU path of a unary instruction: there is no operand B to fetch, check or read (R100). -/
def State.aluUnary (s : State) (m : Mnemonic) (opA : Byte) : State :=
  s.withReg opA fun ra => s.aluApply m ra 0

/-- ADD (R101). -/
def execAdd (ra rb : Byte) (s : State) : Host.Outcome State Fault Refusal := .next (s.aluBinary .add ra rb)

/-- SUB (R102). -/
def execSub (ra rb : Byte) (s : State) : Host.Outcome State Fault Refusal := .next (s.aluBinary .sub ra rb)

/-- MUL (R103). -/
def execMul (ra rb : Byte) (s : State) : Host.Outcome State Fault Refusal := .next (s.aluBinary .mul ra rb)

/-- DIV (R104). -/
def execDiv (ra rb : Byte) (s : State) : Host.Outcome State Fault Refusal := .next (s.aluBinary .div ra rb)

/-- MOD (R105). -/
def execMod (ra rb : Byte) (s : State) : Host.Outcome State Fault Refusal := .next (s.aluBinary .mod ra rb)

/-- AND (R106). -/
def execAnd (ra rb : Byte) (s : State) : Host.Outcome State Fault Refusal := .next (s.aluBinary .and ra rb)

/-- OR (R107). -/
def execOr (ra rb : Byte) (s : State) : Host.Outcome State Fault Refusal := .next (s.aluBinary .or ra rb)

/-- XOR (R108). -/
def execXor (ra rb : Byte) (s : State) : Host.Outcome State Fault Refusal := .next (s.aluBinary .xor ra rb)

/-- SHL (R109). -/
def execShl (ra rb : Byte) (s : State) : Host.Outcome State Fault Refusal := .next (s.aluBinary .shl ra rb)

/-- SHR (R110). -/
def execShr (ra rb : Byte) (s : State) : Host.Outcome State Fault Refusal := .next (s.aluBinary .shr ra rb)

/-- INC (R111). -/
def execInc (ra : Byte) (s : State) : Host.Outcome State Fault Refusal := .next (s.aluUnary .inc ra)

/-- DEC (R112). -/
def execDec (ra : Byte) (s : State) : Host.Outcome State Fault Refusal := .next (s.aluUnary .dec ra)

/-- NOT (R113). -/
def execNot (ra : Byte) (s : State) : Host.Outcome State Fault Refusal := .next (s.aluUnary .not ra)

end Sys2Proof.Machine
end

