-- ==== Sys2Proof/Machine/Control.lean ====
section
/-! DEFINITION. HLT, LDI and PRN (42_control_io.md R130 to R132). -/

namespace Sys2Proof.Machine

/-- HLT: the engine is Halted, with cause 0 and info 0. Nothing else is written, the pc keeps the address of the HLT
byte (R130; DEDUCED by the spec, log entry 4). -/
def execHlt (s : State) : Host.Outcome State Fault Refusal :=
  .next { s with runState := .halted, cause := none, info := 0 }

/-- LDI: the register takes the immediate unchanged (R131). -/
def execLdi (ra imm : Byte) (s : State) : Host.Outcome State Fault Refusal :=
  .next (s.withReg ra fun r => s.setReg r (immOperand imm))

/-- PRN: the register's value goes to the Reporter (R132). -/
def execPrn (ra : Byte) (s : State) : Host.Outcome State Fault Refusal :=
  .next (s.withReg ra fun r => s.emit (.print (s.reg r)))

end Sys2Proof.Machine
end

