-- ==== Sys2Proof/Machine/Stack.lean ====
section
/-! DEFINITION. PUSH and POP (43_stack.md R140, R141). SP is register 7 and points at the current top element; the
stack grows toward lower addresses. -/

namespace Sys2Proof.Machine

/-- The stack pointer's value (10_state.md R25). -/
def State.sp (s : State) : Byte := s.reg Config.spIndex

/-- `x[7] <- x[7] - 1`, PUSH's first write (R140). -/
def State.spDown (s : State) : State := s.setReg Config.spIndex ((s.sp.toNat : Int) - 1)

/-- `x[7] <- x[7] + 1`, mod 256, POP's last write (R141). -/
def State.spUp (s : State) : State := s.setReg Config.spIndex ((s.sp.toNat : Int) + 1)

/-- `POP_EMPTY(sp)`: the stack is empty when SP is its reset value, and only then (R141, decision D9). -/
def popEmpty (sp : Byte) : Bool := sp == Config.spReset

/-- The address a PUSH stores to: SP after the decrement (R140). -/
def State.pushAddress (s : State) : Nat := s.spDown.sp.toNat

/-- PUSH (R140): SP is decremented first, and the register is read after that, so PUSH R7 stores the new SP. -/
def execPush (ra : Byte) (s : State) : Host.Outcome State Fault Refusal :=
  .next (s.withReg ra fun r =>
    if s.sp = 0 then s.raise .stackUnderflow (zext9 s.sp)
    else
      match s.spDown.memWrite s.pushAddress (s.spDown.reg r) with
      | some t => t
      | none => s.raiseOutOfBounds s.pushAddress)

/-- POP (R141): the register takes the byte at SP, and then SP is incremented, so POP R7 leaves that byte plus 1. -/
def execPop (ra : Byte) (s : State) : Host.Outcome State Fault Refusal :=
  .next (s.withReg ra fun r =>
    if popEmpty s.sp then s.raise .stackUnderflow (zext9 s.sp)
    else
      match s.memRead s.sp.toNat with
      | some v => (s.setReg r (v.toNat : Int)).spUp
      | none => s.raiseOutOfBounds s.sp.toNat)

end Sys2Proof.Machine
end

