-- ==== Sys2Proof/Machine/Dispatch.lean ====
section
/-! DEFINITION. Step 5 of a step: each instruction goes to its meaning (40_execution_loop.md R85). -/

namespace Sys2Proof.Machine

def exec (i : Instr) (s : State) : Host.Outcome State Fault Refusal :=
  match i with
  | .hlt => Sys2Proof.Machine.execHlt s
  | .ldi ra imm => Sys2Proof.Machine.execLdi ra imm s
  | .prn ra => Sys2Proof.Machine.execPrn ra s
  | .push ra => Sys2Proof.Machine.execPush ra s
  | .pop ra => Sys2Proof.Machine.execPop ra s
  | .add ra rb => Sys2Proof.Machine.execAdd ra rb s
  | .sub ra rb => Sys2Proof.Machine.execSub ra rb s
  | .mul ra rb => Sys2Proof.Machine.execMul ra rb s
  | .div ra rb => Sys2Proof.Machine.execDiv ra rb s
  | .mod ra rb => Sys2Proof.Machine.execMod ra rb s
  | .and ra rb => Sys2Proof.Machine.execAnd ra rb s
  | .or ra rb => Sys2Proof.Machine.execOr ra rb s
  | .xor ra rb => Sys2Proof.Machine.execXor ra rb s
  | .shl ra rb => Sys2Proof.Machine.execShl ra rb s
  | .shr ra rb => Sys2Proof.Machine.execShr ra rb s
  | .inc ra => Sys2Proof.Machine.execInc ra s
  | .dec ra => Sys2Proof.Machine.execDec ra s
  | .not ra => Sys2Proof.Machine.execNot ra s

end Sys2Proof.Machine
end

