-- ==== Sys2Proof/Machine/Step.lean ====
section
/-! DEFINITION. The whole step (40_execution_loop.md R91), over the operations of Machine/Ops.lean. -/

namespace Sys2Proof.Machine

/-- The step of R91 for a Running engine, as a function of the state and the value of HostStop (R94). -/
def stepSampled (stop : Bool) (s : State) : Host.Outcome State Fault Refusal :=
  if stop then .next s.stopByHost
  else
    match s.fetchOpcode.fetchOperands with
    | .unknownOpcode b => .next (s.fetchOpcode.raise .unknownOpcode (zext9 b))
    | .outOfBounds a => .next (s.fetchOpcode.raiseOutOfBounds a)
    | .instr i =>
      match exec i s.fetchOpcode with
      | .next t => .next t.advance
      | .fault r => .fault r
      | .refused r => .refused r

/-- One step. It is enabled only in Running (R91, R93), and it takes HostStop's value from the state's list of
answers (log entries 2 and 3). -/
def step (s : State) : Host.Outcome State Fault Refusal :=
  if s.runState = .running then stepSampled s.hostStopNow s.hostStopAsked
  else .fault (.notRunning s.runState)

/-- `s` with the instruction of a table word where the next step fetches it (log entry 7). -/
def State.withFetchWord (s : State) (nbits w : Nat) : State := s.placeAtPc (wordBytes nbits w)

end Sys2Proof.Machine
end

