-- ==== Sys2Proof/Machine/Assembler.lean ====
section
/-! DEFINITION. The assembler syntax of 30_encoding.md R72, over lists of characters: one line to its instruction,
lines to the bytes of a program, and an instruction back to its line. No step of the machine uses it. -/

namespace Sys2Proof

/-- The lexical parts of a line. -/
inductive Token where
  | word (cs : List Char)
  | comma
  | lparen
  | rparen
  deriving DecidableEq, Repr

/-- The word read so far, if any. -/
def endWord : List Char → List Token
  | [] => []
  | cs => [.word cs]

/-- A line's tokens up to its comment, `acc` being the word read so far (R72: `[";" comment]`). -/
def tokensFrom (acc : List Char) : List Char → List Token
  | [] => endWord acc
  | c :: cs =>
    if c = ';' then endWord acc
    else if c = ' ' then endWord acc ++ tokensFrom [] cs
    else if c = '\t' then endWord acc ++ tokensFrom [] cs
    else if c = ',' then endWord acc ++ .comma :: tokensFrom [] cs
    else if c = '(' then endWord acc ++ .lparen :: tokensFrom [] cs
    else if c = ')' then endWord acc ++ .rparen :: tokensFrom [] cs
    else tokensFrom (acc ++ [c]) cs

/-- The mnemonics as they are written (R66, R72). -/
def Mnemonic.name : Mnemonic → List Char
  | .hlt => ['H', 'L', 'T']
  | .ldi => ['L', 'D', 'I']
  | .prn => ['P', 'R', 'N']
  | .push => ['P', 'U', 'S', 'H']
  | .pop => ['P', 'O', 'P']
  | .add => ['A', 'D', 'D']
  | .sub => ['S', 'U', 'B']
  | .mul => ['M', 'U', 'L']
  | .div => ['D', 'I', 'V']
  | .mod => ['M', 'O', 'D']
  | .and => ['A', 'N', 'D']
  | .or => ['O', 'R']
  | .xor => ['X', 'O', 'R']
  | .shl => ['S', 'H', 'L']
  | .shr => ['S', 'H', 'R']
  | .inc => ['I', 'N', 'C']
  | .dec => ['D', 'E', 'C']
  | .not => ['N', 'O', 'T']

/-- The mnemonic a word names. -/
def mnemonicNamed (cs : List Char) : Option Mnemonic :=
  (opcodeMap.map (·.2.mnemonic)).find? (fun m => m.name = cs)

/-- The register a word names: R0..R7, IM, IS or SP (R72). -/
def regNamed : List Char → Option Byte
  | ['I', 'M'] => some 5
  | ['I', 'S'] => some 6
  | ['S', 'P'] => some 7
  | ['R', '0'] => some 0
  | ['R', '1'] => some 1
  | ['R', '2'] => some 2
  | ['R', '3'] => some 3
  | ['R', '4'] => some 4
  | ['R', '5'] => some 5
  | ['R', '6'] => some 6
  | ['R', '7'] => some 7
  | _ => none

/-- The hexadecimal digits, in order. -/
def hexDigits : List Char :=
  ['0', '1', '2', '3', '4', '5', '6', '7', '8', '9', 'A', 'B', 'C', 'D', 'E', 'F']

/-- A hexadecimal digit's value. -/
def hexValue (c : Char) : Option Nat := hexDigits.idxOf? c

/-- The value of a string of decimal digits after `acc`. -/
def decValue : Nat → List Char → Option Nat
  | acc, [] => some acc
  | acc, c :: cs =>
    match (hexDigits.take 10).idxOf? c with
    | some d => decValue (10 * acc + d) cs
    | none => none

/-- An immediate: decimal 0..255, or 0x and two hexadecimal digits (R72; log entry 8). -/
def immNamed : List Char → Option Byte
  | ['0', 'x', h, l] =>
    match hexValue h, hexValue l with
    | some a, some b => some (BitVec.ofNat 8 (16 * a + b))
    | _, _ => none
  | [] => none
  | cs =>
    match decValue 0 cs with
    | some n => if n < 256 then some (BitVec.ofNat 8 n) else none
    | none => none

/-- The instruction of a mnemonic and its operand words, by the mnemonic's format (R67, R72). -/
def instrOf (m : Mnemonic) (ops : List (List Char)) : Option Instr :=
  match m.format, ops with
  | .f0, [] => buildInstr m []
  | .f1r, [a] => (regNamed a).bind fun ra => buildInstr m [ra]
  | .f2rr, [a, b] => (regNamed a).bind fun ra => (regNamed b).bind fun rb => buildInstr m [ra, rb]
  | .f2ri, [a, b] => (regNamed a).bind fun ra => (immNamed b).bind fun imm => buildInstr m [ra, imm]
  | _, _ => none

/-- The mnemonic and operand words of a line's tokens: `M a, b`, or the synonym `M(a, b)` (R72). -/
def splitTokens : List Token → Option (List Char × List (List Char))
  | [.word m] => some (m, [])
  | [.word m, .word a] => some (m, [a])
  | [.word m, .lparen, .word a, .rparen] => some (m, [a])
  | [.word m, .word a, .comma, .word b] => some (m, [a, b])
  | [.word m, .lparen, .word a, .comma, .word b, .rparen] => some (m, [a, b])
  | _ => none

/-- The instruction of a line that holds one. -/
def instrOfLine (line : List Char) : Option Instr :=
  (splitTokens (tokensFrom [] line)).bind fun p => (mnemonicNamed p.1).bind fun m => instrOf m p.2

/-- A line's bytes: none for an empty line or a comment, else its instruction's (R72). -/
def assembleLine (line : List Char) : Option (List Byte) :=
  if tokensFrom [] line = [] then some [] else (instrOfLine line).map encode

/-- A program's bytes: its lines' bytes in order (R72). -/
def assemble : List (List Char) → Option (List Byte)
  | [] => some []
  | line :: lines => (assembleLine line).bind fun b => (assemble lines).map (b ++ ·)

/-- A register operand as it is written. -/
def renderReg (b : Byte) : List Char := ['R', (hexDigits[b.toNat]?).getD '?']

/-- An immediate as it is written, in hexadecimal. -/
def renderImm (b : Byte) : List Char :=
  ['0', 'x', (hexDigits[b.toNat / 16]?).getD '?', (hexDigits[b.toNat % 16]?).getD '?']

/-- An instruction's line (R12, R72). -/
def renderInstr (i : Instr) : List Char :=
  match i.mnemonic.format, i.operands with
  | .f1r, [a] => i.mnemonic.name ++ ' ' :: renderReg a
  | .f2rr, [a, b] => i.mnemonic.name ++ ' ' :: renderReg a ++ ',' :: ' ' :: renderReg b
  | .f2ri, [a, b] => i.mnemonic.name ++ ' ' :: renderReg a ++ ',' :: ' ' :: renderImm b
  | _, _ => i.mnemonic.name

end Sys2Proof
end

