-- ==== Sys2Proof/Machine/Run.lean ====
section
/-! DEFINITION. The engine's outside: the Loader (40_execution_loop.md R95), the launch state (70_reset_and_hazards.md
R182), `run()` and what it returns (40_execution_loop.md R92). -/

namespace Sys2Proof.Machine

/-- The launch state of an image: reset, then the image written from address 0 up. An image longer than the memory
is refused and the engine never starts (40_execution_loop.md R95; 70_reset_and_hazards.md R181, R182). -/
def State.launch (image : List Byte) : Option State :=
  if image.length ≤ Config.memSize then
    some { State.reset with mem := State.reset.mem.load Config.loadBase image }
  else none

/-- At most `n` steps, stopping as soon as the run state is no longer Running (40_execution_loop.md R92). Every run
ends within 128 (70_reset_and_hazards.md R189), so `runFor 128` is `run()`. -/
def runFor : Nat → State → State
  | 0, s => s
  | n + 1, s =>
    match step s with
    | .next t => runFor n t
    | .fault _ => s
    | .refused _ => s

/-- The same with the stop predicate itself as the host injects it (40_execution_loop.md R90, R94; I12), asked once
at the start of each iteration. -/
def runUnder (hostStop : State → Bool) : Nat → State → State
  | 0, s => s
  | n + 1, s =>
    if s.runState = .running then
      match stepSampled (hostStop s) s with
      | .next t => runUnder hostStop n t
      | .fault _ => s
      | .refused _ => s
    else s

/-- What `run()` returns (40_execution_loop.md R92). -/
inductive RunResult where
  /-- Halted with cause 0: normal completion, by HLT. -/
  | completed
  /-- Halted with cause DivisionByZero: normal completion after the diagnostic. -/
  | completedAfterDivisionByZero
  /-- Faulted: failure, told apart by the cause. -/
  | failed (k : FaultKind)
  /-- Stopped by the host's predicate. -/
  | stoppedByHost
  deriving DecidableEq, Repr

/-- The terminal condition of a state, `none` while it is Running and for a combination of run state and cause that
the table of R92 does not list. -/
def State.runResult (s : State) : Option RunResult :=
  match s.runState, s.cause with
  | .halted, none => some .completed
  | .halted, some .divisionByZero => some .completedAfterDivisionByZero
  | .faulted, some .divisionByZero => none
  | .faulted, some k => some (.failed k)
  | .stopped, none => some .stoppedByHost
  | _, _ => none

end Sys2Proof.Machine
end

