-- ==== Sys2Proof/Safety.lean ====
section
/-! DEFINITION. The terms the statements use: what an instruction may change (frames), the state a fault leaves, and
the invariant of a run. -/

namespace Sys2Proof.Machine

/-- Every byte of memory reads as before. -/
def SameMemory (s t : State) : Prop := ∀ a, t.mem.read a = s.mem.read a

/-- Every register but those in `dest` is as before. -/
def SameRegsBut (dest : List (Fin 8)) (s t : State) : Prop := ∀ r, r ∉ dest → t.reg r = s.reg r

/-- The run state, the cause and the recorded value are as before. -/
def SameStatus (s t : State) : Prop := t.runState = s.runState ∧ t.cause = s.cause ∧ t.info = s.info

/-- The pc, the instruction register and the host's coming answers are as before. -/
def SameSequencing (s t : State) : Prop := t.pc = s.pc ∧ t.ir = s.ir ∧ t.hostStop = s.hostStop

/-- Nothing but register `d` changed: the other registers, all of memory, the status, the Reporter's stream, the pc,
the instruction register and the host's coming answers are as before. -/
def OnlyRegister (d : Fin 8) (s t : State) : Prop :=
  SameRegsBut [d] s t ∧ SameMemory s t ∧ SameStatus s t ∧ SameSequencing s t ∧ t.events = s.events

/-- The state a fatal fault leaves: Faulted, with its kind and value recorded and one Diag sent, and nothing else
changed (60_exceptions.md R155). -/
def FaultedFrom (s : State) (k : FaultKind) (info : BitVec 9) : State :=
  { s with runState := .faulted, cause := some k, info := info, events := s.events ++ [.diag k info] }

/-- A unary instruction that writes its operand's register: whatever the state, when operand A names a register, the
instruction completes, the register holds a byte `r` with `Result va r`, `va` being the value it had, and nothing else
changes. -/
def WritesUnary (i : Byte → Instr) (Result : Byte → Byte → Prop) : Prop :=
  ∀ (s : State) (ra : Byte) (ha : ra.toNat < 8),
    ∃ t, exec (i ra) s = .next t ∧ Result (s.reg ⟨ra.toNat, ha⟩) (t.reg ⟨ra.toNat, ha⟩) ∧
      OnlyRegister ⟨ra.toNat, ha⟩ s t

/-- A binary instruction that writes operand A's register: whatever the state, when both operands name registers and
their values `va` and `vb` meet `Guard`, the instruction completes, the register holds a byte `r` with
`Result va vb r`, and nothing else changes. -/
def WritesBinary (i : Byte → Byte → Instr) (Guard : Byte → Byte → Prop) (Result : Byte → Byte → Byte → Prop) : Prop :=
  ∀ (s : State) (ra rb : Byte) (ha : ra.toNat < 8) (hb : rb.toNat < 8),
    Guard (s.reg ⟨ra.toNat, ha⟩) (s.reg ⟨rb.toNat, hb⟩) →
      ∃ t, exec (i ra rb) s = .next t ∧
        Result (s.reg ⟨ra.toNat, ha⟩) (s.reg ⟨rb.toNat, hb⟩) (t.reg ⟨ra.toNat, ha⟩) ∧
          OnlyRegister ⟨ra.toNat, ha⟩ s t

/-- Byte `op` is the opcode of a one-operand instruction, whatever its operand byte and the bytes after it. -/
def EncodedUnary (op : Byte) (i : Byte → Instr) : Prop :=
  ∀ (a : Byte) (rest : List Byte), decode (op :: a :: rest) = .ok (i a) rest

/-- Byte `op` is the opcode of a two-operand instruction, whatever its operand bytes and the bytes after it. -/
def EncodedBinary (op : Byte) (i : Byte → Byte → Instr) : Prop :=
  ∀ (a b : Byte) (rest : List Byte), decode (op :: a :: b :: rest) = .ok (i a b) rest

/-- No condition on the operands' values. -/
def Always (_va _vb : Byte) : Prop := True

/-- An instruction with one register operand raises InvalidRegister, and does nothing else, when it names no
register (60_exceptions.md R152, R155). -/
def ChecksUnary (i : Byte → Instr) : Prop :=
  ∀ (s : State) (ra : Byte), 8 ≤ ra.toNat →
    exec (i ra) s = .next (FaultedFrom s .invalidRegister (zext9 ra))

/-- An instruction with two register operands checks operand A, then operand B (60_exceptions.md R152, R155). -/
def ChecksBinary (i : Byte → Byte → Instr) : Prop :=
  ∀ (s : State) (ra rb : Byte),
    (8 ≤ ra.toNat → exec (i ra rb) s = .next (FaultedFrom s .invalidRegister (zext9 ra))) ∧
      (ra.toNat < 8 → 8 ≤ rb.toNat → exec (i ra rb) s = .next (FaultedFrom s .invalidRegister (zext9 rb)))

/-- A dividing instruction by 0: Halted, with the kind and the opcode byte recorded and one Diag sent, and nothing
else changed (60_exceptions.md R156). -/
def HaltsOnZero (i : Byte → Byte → Instr) : Prop :=
  ∀ (s : State) (ra rb : Byte) (_ha : ra.toNat < 8) (hb : rb.toNat < 8), s.reg ⟨rb.toNat, hb⟩ = 0 →
    exec (i ra rb) s =
      .next { s with
        runState := .halted
        cause := some .divisionByZero
        info := zext9 s.ir
        events := s.events ++ [.diag .divisionByZero (zext9 s.ir)] }

/-- An outcome with its next state changed. -/
def onNext (f : State → State) : Host.Outcome State Fault Refusal → Host.Outcome State Fault Refusal
  | .next t => .next (f t)
  | .fault r => .fault r
  | .refused r => .refused r

/-- Executing instructions one after another, each as step 5 of a step. -/
def execAll : List Instr → State → Host.Outcome State Fault Refusal
  | [], s => .next s
  | i :: is, s =>
    match exec i s with
    | .next t => execAll is t
    | .fault r => .fault r
    | .refused r => .refused r

/-- The first register operand of an instruction that names no register, operand A before operand B
(60_exceptions.md R152). -/
def firstBadRegister (i : Instr) : Option Byte := i.regOperands.find? (fun b => !regByteOk b)

/-- The state in which a Running engine executes its instruction: HostStop asked, the opcode byte in `ir`. -/
def atExecute (s : State) : State := s.hostStopAsked.fetchOpcode

/-- The engine is Running and the host does not stop it now. -/
def Enabled (s : State) : Prop := s.runState = .running ∧ s.hostStopNow = false

/-- The value recorded with a fault kind in Faulted (60_exceptions.md R150). DivisionByZero does not end in Faulted,
and UnsupportedOperation cannot occur (41_alu.md R115). -/
def InfoLegal (k : FaultKind) (info : BitVec 9) : Prop :=
  match k with
  | .unknownOpcode => info.toNat < 256 ∧ dispatch (info.setWidth 8) = none
  | .addressOutOfBounds => info.toNat = 256 ∨ info.toNat = 257
  | .invalidRegister => 8 ≤ info.toNat ∧ info.toNat ≤ 255
  | .divisionByZero => False
  | .stackUnderflow => info.toNat = 0 ∨ info.toNat = 0xF4
  | .unsupportedOperation => False

/-- The run state, the cause and the recorded value fit together (10_state.md R29, R30; 60_exceptions.md R150). -/
def StatusLegal (s : State) : Prop :=
  match s.runState with
  | .running => s.cause = none ∧ s.info = 0
  | .stopped => s.cause = none ∧ s.info = 0
  | .halted =>
    (s.cause = none ∧ s.info = 0) ∨
      (s.cause = some .divisionByZero ∧ (s.info.toNat = 0xA3 ∨ s.info.toNat = 0xA4))
  | .faulted => ∃ k, s.cause = some k ∧ InfoLegal k s.info

/-- No diagnostic among the events. -/
def NoDiag (es : List Event) : Prop := ∀ k info, Event.diag k info ∉ es

/-- The Reporter's stream holds no Diag while no fault is recorded, and otherwise exactly one, the last event, with
the recorded kind and value (60_exceptions.md R160). -/
def DiagLegal (s : State) : Prop :=
  match s.cause with
  | none => NoDiag s.events
  | some k => ∃ before, s.events = before ++ [.diag k s.info] ∧ NoDiag before

/-- The invariant of a run. -/
structure RunInv (s : State) : Prop where
  memory : s.mem.wf
  status : StatusLegal s
  diag : DiagLegal s

end Sys2Proof.Machine
end

