-- ==== Sys2Proof/Certificates/Slice0/Obligations.lean ====
section
/-! DEFINITION. The statements for the provers, from the numbered rules of spec/. Where a rule rests on a decision of
the spec (92_eei_decisions.md) the docstring names it. Where a clause is one the spec marks as its own inference
("derived"), or rests on a log entry, the docstring says so and the statement's basis is "derived". -/

open Sys2Proof Sys2Proof.Machine

/-! ### Reset and launch -/

/-- 10_state.md R36: every piece of state after construction. (`ir`, `cause` and `info` are the spec's decisions D19
and D11.) -/
def Obligations.ResetStateIsTheSpecs : Prop :=
  (∀ r : Fin 8, r ≠ 7 → State.reset.reg r = 0) ∧ State.reset.reg 7 = 0xF4 ∧ State.reset.pc = 0 ∧
    (∀ a, a ≤ 255 → State.reset.memRead a = some 0) ∧ State.reset.runState = .running ∧
      State.reset.ir = 0 ∧ State.reset.cause = none ∧ State.reset.info = 0

/-- 40_execution_loop.md R95: an image of at most 256 bytes is written from address 0 up and the other cells keep 0;
a longer one is refused (decision D14). Nothing but memory is written. -/
def Obligations.LaunchWritesTheImageAndRefusesLongerOnes : Prop :=
  ∀ image : List Byte,
    (image.length ≤ 256 →
      ∃ s, State.launch image = some s ∧
        (∀ (i : Nat) (h : i < image.length), s.mem.read i = image[i]) ∧
        (∀ i, image.length ≤ i → i ≤ 255 → s.mem.read i = 0) ∧
        s = { State.reset with mem := s.mem }) ∧
    (256 < image.length → State.launch image = none)

/-- The invariant of a run holds after reset. Derived: 10_state.md and the canonical form of memory. -/
def Obligations.InvariantHoldsAtReset : Prop := RunInv State.reset

/-- The invariant of a run holds in the launch state of every image. Derived: 40_execution_loop.md and 10_state.md. -/
def Obligations.InvariantHoldsAtLaunch : Prop :=
  ∀ (image : List Byte) (s : State), State.launch image = some s → RunInv s

/-- Every step keeps the invariant: memory stays canonical; the run state, the cause and the recorded value fit
together as 10_state.md R29 and R30 and 60_exceptions.md R150 have it, with no UnsupportedOperation; the Reporter's
stream holds a Diag exactly when a fault is recorded, one, the last event, with its kind and value (R160).
Derived: it ties several rules together, and that UnsupportedOperation does not occur is the spec's inference. -/
def Obligations.EveryStepKeepsTheInvariant : Prop :=
  ∀ s t : State, RunInv s → step s = .next t → RunInv t

/-! ### Encoding -/

/-- 30_encoding.md R66: each of the 18 bytes, written out, is its instruction with the operand bytes that follow it,
whatever they are, and the bytes after those are left; its descriptor has R66's count and ALU flag; no other byte is an
instruction. (The byte values are the spec's
decision D1.) -/
def Obligations.DecoderReadsExactlyTheOpcodeMap : Prop :=
  ∀ (a b : Byte) (rest : List Byte),
    decode (0x01 :: rest) = .ok .hlt rest ∧
    decode (0x82 :: a :: b :: rest) = .ok (.ldi a b) rest ∧
    decode (0x47 :: a :: rest) = .ok (.prn a) rest ∧
    decode (0x45 :: a :: rest) = .ok (.push a) rest ∧
    decode (0x46 :: a :: rest) = .ok (.pop a) rest ∧
    decode (0xA0 :: a :: b :: rest) = .ok (.add a b) rest ∧
    decode (0xA1 :: a :: b :: rest) = .ok (.sub a b) rest ∧
    decode (0xA2 :: a :: b :: rest) = .ok (.mul a b) rest ∧
    decode (0xA3 :: a :: b :: rest) = .ok (.div a b) rest ∧
    decode (0xA4 :: a :: b :: rest) = .ok (.mod a b) rest ∧
    decode (0xA8 :: a :: b :: rest) = .ok (.and a b) rest ∧
    decode (0xAA :: a :: b :: rest) = .ok (.or a b) rest ∧
    decode (0xAB :: a :: b :: rest) = .ok (.xor a b) rest ∧
    decode (0xAC :: a :: b :: rest) = .ok (.shl a b) rest ∧
    decode (0xAD :: a :: b :: rest) = .ok (.shr a b) rest ∧
    decode (0x65 :: a :: rest) = .ok (.inc a) rest ∧
    decode (0x66 :: a :: rest) = .ok (.dec a) rest ∧
    decode (0x69 :: a :: rest) = .ok (.not a) rest ∧
    ([0x01, 0x82, 0x47, 0x45, 0x46] : List Byte).map dispatch =
      [some ⟨.hlt, 0, false⟩, some ⟨.ldi, 2, false⟩, some ⟨.prn, 1, false⟩, some ⟨.push, 1, false⟩,
        some ⟨.pop, 1, false⟩] ∧
    ([0xA0, 0xA1, 0xA2, 0xA3, 0xA4, 0xA8, 0xAA, 0xAB, 0xAC, 0xAD] : List Byte).map dispatch =
      [Mnemonic.add, .sub, .mul, .div, .mod, .and, .or, .xor, .shl, .shr].map (fun m => some ⟨m, 2, true⟩) ∧
    ([0x65, 0x66, 0x69] : List Byte).map dispatch =
      [Mnemonic.inc, .dec, .not].map (fun m => some ⟨m, 1, true⟩) ∧
    ∀ op : Byte,
      op ∉ ([0x01, 0x82, 0x47, 0x45, 0x46, 0xA0, 0xA1, 0xA2, 0xA3, 0xA4, 0xA8, 0xAA, 0xAB, 0xAC, 0xAD, 0x65, 0x66,
        0x69] : List Byte) → decode (op :: rest) = .unknownOpcode op ∧ dispatch op = none

/-- Decode and encode agree in both directions, for every instruction and every operand byte: the decoder answers `i`
on exactly the byte sequences that begin with the encoding of `i`. Derived: 30_encoding.md, formats and decoder. -/
def Obligations.DecodeAnswersExactlyOnEncodings : Prop :=
  ∀ (bytes : List Byte) (i : Instr) (rest : List Byte), decode bytes = .ok i rest ↔ bytes = encode i ++ rest

/-- 00_scope.md R7: a map passes the configuration check exactly when each entry's count and ALU flag are the byte's
bits 7:6 and 5, no byte stands twice, and its descriptors are, in some order, those of the 18 instructions of R66, each
once and each with R66's count and ALU flag, written out here; and this hardware's map passes. Only the byte values are
free (R6). (The refusal is the spec's decision D21.) -/
def Obligations.OpcodeMapsAreHeldToTheEncodingContract : Prop :=
  (∀ m : List (Byte × Descriptor),
    opcodeMapOk m = true ↔
      (∀ row ∈ m, row.1.toNat / 64 = row.2.operandCount ∧ row.1.toNat / 32 % 2 = (if row.2.isAlu then 1 else 0)) ∧
        (m.map (·.1)).Nodup ∧
        (m.map (·.2)).Perm
          [⟨.hlt, 0, false⟩, ⟨.ldi, 2, false⟩, ⟨.prn, 1, false⟩, ⟨.push, 1, false⟩, ⟨.pop, 1, false⟩,
            ⟨.add, 2, true⟩, ⟨.sub, 2, true⟩, ⟨.mul, 2, true⟩, ⟨.div, 2, true⟩, ⟨.mod, 2, true⟩,
            ⟨.and, 2, true⟩, ⟨.or, 2, true⟩, ⟨.xor, 2, true⟩, ⟨.shl, 2, true⟩, ⟨.shr, 2, true⟩,
            ⟨.inc, 1, true⟩, ⟨.dec, 1, true⟩, ⟨.not, 1, true⟩]) ∧
    opcodeMapOk opcodeMap = true

/-- Steps 2 to 4 of a step give what the decoder gives on the bytes from the pc to the end of memory: a legal
instruction, an unknown opcode, or AddressOutOfBounds at the first byte missing. Derived: the decoder of
30_encoding.md R71 is the spec's inference. -/
def Obligations.FetchAgreesWithTheDecoderAtThePc : Prop :=
  ∀ s : State,
    s.fetchOpcode.fetchOperands =
      match decode s.bytesAtPc with
      | .ok i _ => .instr i
      | .unknownOpcode b => .unknownOpcode b
      | .truncated k => .outOfBounds (s.pc.toNat + k)

/-- An assembler's line for a well-formed instruction, in the syntax of 30_encoding.md R72, is assembled to the
instruction's opcode byte and operand bytes. Derived: the written form is the model's `renderInstr` (log entry 8). -/
def Obligations.AssemblingAWrittenInstructionGivesItsBytes : Prop :=
  ∀ i : Instr, i.wellFormed = true → assembleLine (renderInstr i) = some (encode i)

/-! ### The step -/

/-- A step runs the decoded instruction: when the engine is Running, the host does not stop it, and the bytes at the
pc decode to `i`, the step executes `i` with the opcode byte in `ir` and then takes step 6 (`State.advance`, stated in
`AdvanceFollowsTheInstruction`). Derived: 40_execution_loop.md, in the model's names. -/
def Obligations.StepExecutesTheDecodedInstruction : Prop :=
  ∀ (s : State) (i : Instr) (rest : List Byte), Enabled s → decode s.bytesAtPc = .ok i rest →
    step s = onNext State.advance (exec i (atExecute s))

/-- 40_execution_loop.md R87 and R88: after an instruction that leaves the engine Running, the pc moves past its
`n + 1` bytes, or, when that is above 255 (which
an instruction that ends exactly at 255 alone can do), AddressOutOfBounds is raised, the pc is not written and the instruction's
writes stand (decision D3); after one that does not, nothing more happens. -/
def Obligations.AdvanceFollowsTheInstruction : Prop :=
  ∀ (s u : State) (i : Instr) (rest : List Byte), Enabled s → decode s.bytesAtPc = .ok i rest →
    exec i (atExecute s) = .next u →
      (u.runState ≠ .running → step s = .next u) ∧
      (u.runState = .running → s.pc.toNat + operandCountOf (s.mem.read s.pc.toNat) + 1 ≤ 255 →
        step s = .next { u with
          pc := BitVec.ofNat 8 (s.pc.toNat + operandCountOf (s.mem.read s.pc.toNat) + 1) }) ∧
      (u.runState = .running → 255 < s.pc.toNat + operandCountOf (s.mem.read s.pc.toNat) + 1 →
        s.pc.toNat + operandCountOf (s.mem.read s.pc.toNat) = 255 ∧
          step s = .next (FaultedFrom u .addressOutOfBounds
            (BitVec.ofNat 9 (s.pc.toNat + operandCountOf (s.mem.read s.pc.toNat) + 1))))

/-- Every step that leaves the engine Running advances the pc by the operand count of the opcode byte plus 1, with no
wrap. Derived: 10_state.md (its rule also says more) and the source's testable property. -/
def Obligations.EveryCompletedStepAdvancesThePc : Prop :=
  ∀ s t : State, step s = .next t → t.runState = .running →
    t.pc.toNat = s.pc.toNat + operandCountOf (s.mem.read s.pc.toNat) + 1

/-- Every step that ends the run leaves the pc at the instruction in progress. Derived: the spec marks this of faults
and of HLT as its inference (40_execution_loop.md R86, 42_control_io.md R130; log entry 4). -/
def Obligations.EveryTerminalStepLeavesThePc : Prop :=
  ∀ s t : State, step s = .next t → t.runState ≠ .running → t.pc = s.pc

/-- 40_execution_loop.md R83 and 60_exceptions.md R154: an opcode byte outside the map, at whatever pc, raises
UnknownOpcode with the byte; no operand is fetched and nothing but the diagnostic is emitted. -/
def Obligations.UnknownOpcodeEndsTheRunWithTheByte : Prop :=
  ∀ (s : State) (op : Byte), Enabled s → s.mem.read s.pc.toNat = op →
    op ∉ ([0x01, 0x82, 0x47, 0x45, 0x46, 0xA0, 0xA1, 0xA2, 0xA3, 0xA4, 0xA8, 0xAA, 0xAB, 0xAC, 0xAD, 0x65, 0x66,
      0x69] : List Byte) →
      step s = .next (FaultedFrom (atExecute s) .unknownOpcode (zext9 op))

/-- 40_execution_loop.md R84: exactly `n` operand bytes are read, from pc + 1 up, and the first of their addresses
above 255 raises AddressOutOfBounds (decision D2). -/
def Obligations.OperandFetchReadsExactlyTheOperandsOrFaults : Prop :=
  ∀ (s : State) (d : Descriptor), Enabled s → dispatch (s.mem.read s.pc.toNat) = some d →
    (s.pc.toNat + operandCountOf (s.mem.read s.pc.toNat) ≤ 255 →
      ∃ i, (atExecute s).fetchOperands = .instr i ∧ i.mnemonic = d.mnemonic ∧
        i.operands = (List.range (operandCountOf (s.mem.read s.pc.toNat))).map
          (fun k => s.mem.read (s.pc.toNat + 1 + k))) ∧
    (255 < s.pc.toNat + operandCountOf (s.mem.read s.pc.toNat) →
      step s = .next (FaultedFrom (atExecute s) .addressOutOfBounds
        (BitVec.ofNat 9 (if 255 < s.pc.toNat + 1 then s.pc.toNat + 1 else s.pc.toNat + 2))))

/-- When HostStop is true at the start of an iteration, the run ends in Stopped with cause
and info 0, whatever the memory holds, and nothing else is written. Derived: the stop is answered by the
field `hostStop`, which the model reads (log entry 2); decision D12. -/
def Obligations.HostStopEndsTheRunBeforeTheFetch : Prop :=
  ∀ s : State, s.runState = .running → s.hostStopNow = true →
    step s = .next { s with runState := .stopped, cause := none, info := 0, hostStop := s.hostStop.tail }

/-- 40_execution_loop.md R93: a state has a next step exactly when it is Running. (That the model's step answers a
named fault elsewhere is log entry 3 and is not stated here.) -/
def Obligations.ExactlyTheRunningStatesHaveANextStep : Prop :=
  ∀ s : State, (∃ t, step s = .next t) ↔ s.runState = .running

/-- 60_exceptions.md R157: a step that ends in a fault leaves every register, every memory cell and the pc as they
were, except at the advance: there the instruction's own writes stand and the pc is not advanced (decisions D3, D4). -/
def Obligations.FaultsArePreciseExceptAtTheAdvance : Prop :=
  ∀ (s t : State) (k : FaultKind), step s = .next t → t.runState ≠ .running → t.cause = some k →
    t.pc = s.pc ∧
      ((t.regs = s.regs ∧ SameMemory s t) ∨
        (k = .addressOutOfBounds ∧
          ∃ (i : Instr) (rest : List Byte) (u : State), decode s.bytesAtPc = .ok i rest ∧
            exec i (atExecute s) = .next u ∧ u.runState = .running ∧
            255 < s.pc.toNat + operandCountOf (s.mem.read s.pc.toNat) + 1 ∧
            t = FaultedFrom u .addressOutOfBounds
              (BitVec.ofNat 9 (s.pc.toNat + operandCountOf (s.mem.read s.pc.toNat) + 1))))

/-- No step reads the Reporter's stream, and every step only appends to it: with another stream before it, the same
step appends the same events and leaves the same state otherwise. Derived: 10_state.md and 40_execution_loop.md; the
stream as a field is log entry 1. -/
def Obligations.StepsOnlyAppendToTheReporterStream : Prop :=
  ∀ (s t : State) (es : List Event), step s = .next t →
    ∃ new, t.events = s.events ++ new ∧ step { s with events := es } = .next { t with events := es ++ new }

/-- The only byte of memory a step can change is the one a PUSH stores to, below the stack pointer. Derived:
20_memory.md, the table of accesses. -/
def Obligations.OnlyPushChangesMemory : Prop :=
  ∀ (s t : State) (a : Nat), step s = .next t → t.mem.read a ≠ s.mem.read a →
    s.mem.read s.pc.toNat = 0x45 ∧ s.sp ≠ 0 ∧ a = s.sp.toNat - 1

/-- A byte that PUSH stores where the next instruction begins is the next opcode byte fetched. Derived: the spec marks
the coherence of the fetch as its inference (20_memory.md R52). -/
def Obligations.PushedByteIsFetchedByTheNextStep : Prop :=
  ∀ (s t : State) (ra : Byte) (rest : List Byte) (ha : ra.toNat < 8), Enabled s →
    decode s.bytesAtPc = .ok (.push ra) rest → s.sp.toNat = s.pc.toNat + 3 → step s = .next t →
      t.runState = .running ∧
        (atExecute t).ir.toNat = if ra.toNat = 7 then s.sp.toNat - 1 else (s.reg ⟨ra.toNat, ha⟩).toNat

/-! ### Runs -/

/-- Every run ends within 128 steps, from every state, whatever the host's stop predicate. Derived: the spec marks the
bound as its inference (70_reset_and_hazards.md R189). -/
def Obligations.EveryRunEndsWithin128Steps : Prop :=
  ∀ s : State, (runFor 128 s).runState ≠ .running ∧
    ∀ hostStop : State → Bool, (runUnder hostStop 128 s).runState ≠ .running

/-- A run from a state that meets the invariant ends in one of the terminal conditions that `run()` returns. Derived:
40_execution_loop.md, the table of `run()` results, with the bound of 70_reset_and_hazards.md. -/
def Obligations.EveryRunReturnsATerminalCondition : Prop :=
  ∀ s : State, RunInv s →
    (∃ r, (runFor 128 s).runResult = some r) ∧
      ((runFor 128 s).runResult = some .completed ↔
        (runFor 128 s).runState = .halted ∧ (runFor 128 s).cause = none) ∧
      ((runFor 128 s).runResult = some .completedAfterDivisionByZero ↔
        (runFor 128 s).runState = .halted ∧ (runFor 128 s).cause = some .divisionByZero) ∧
      (∀ k, (runFor 128 s).runResult = some (.failed k) ↔
        (runFor 128 s).runState = .faulted ∧ (runFor 128 s).cause = some k) ∧
      ((runFor 128 s).runResult = some .stoppedByHost ↔ (runFor 128 s).runState = .stopped)

/-- The list of answers stands for every predicate the host may inject: for each predicate (one that does not look at
the model's own list) there is a list with which the model's run is the run under the predicate. Derived:
93_implementation_defined.md I12 and log entry 2. -/
def Obligations.HostAnswerListsCoverEveryPredicate : Prop :=
  ∀ hostStop : State → Bool, (∀ (s : State) (l : List Bool), hostStop { s with hostStop := l } = hostStop s) →
    ∀ (n : Nat) (s : State), ∃ l : List Bool,
      runFor n { s with hostStop := l } = { runUnder hostStop n s with hostStop := [] }

/-- `withFetchWord` places a table word so that the very next step executes the instruction the decoder reads from it,
and changes nothing but the run state, the host's next answer and the three bytes at the pc. Derived: log entry 7. -/
def Obligations.FetchWordIsWhatTheNextStepRuns : Prop :=
  ∀ (s : State) (nbits w : Nat) (i : Instr), decodeTableWord nbits w = some i → s.pc.toNat + 3 ≤ 256 →
    step (s.withFetchWord nbits w) = onNext State.advance (exec i (atExecute (s.withFetchWord nbits w))) ∧
      (∀ a, (a < s.pc.toNat ∨ s.pc.toNat + 3 ≤ a) → (s.withFetchWord nbits w).mem.read a = s.mem.read a) ∧
      s.withFetchWord nbits w =
        { s with
          mem := (s.withFetchWord nbits w).mem
          runState := .running
          hostStop := (s.withFetchWord nbits w).hostStop } ∧
      (s.withFetchWord nbits w).hostStop.tail = s.hostStop.tail

/-! ### Memory and registers -/

/-- Inside 0..255 a byte written reads back and every other cell keeps its byte; outside, the
access is refused and nothing changes, and the address is not reduced. Derived: 20_memory.md, its primitives, whose
callers raise the fault. -/
def Obligations.MemoryAccessesAreBytewiseAndBounded : Prop :=
  ∀ (s : State) (a : Nat) (v : Byte),
    (a ≤ 255 →
      s.memRead a = some (s.mem.read a) ∧
        ∃ t, s.memWrite a v = some t ∧ t.memRead a = some v ∧ (∀ b, b ≠ a → t.memRead b = s.memRead b) ∧
          t = { s with mem := t.mem }) ∧
    (255 < a → s.memRead a = none ∧ s.memWrite a v = none ∧
      s.raiseOutOfBounds a = FaultedFrom s .addressOutOfBounds (BitVec.ofNat 9 a))

/-- A register write stores the value mod 256, whatever integer it is, and touches nothing else. Derived: 10_state.md
(the rule also says that every result goes through this write, which the instructions' own statements show). -/
def Obligations.RegisterWritesAreTakenMod256 : Prop :=
  ∀ (s : State) (r : Fin 8) (v : Int),
    (((s.setReg r v).reg r).toNat : Int) = v % 256 ∧ OnlyRegister r s (s.setReg r v)

/-- 10_state.md R24: R5 (IM) and R6 (IS) behave as R0..R4 do, that is, as every register but SP: an instruction whose
operands do not name the register does not read it, so changing the register before the instruction or after it is the
same; and no step, whatever ends it, writes such a register unless its instruction names it. (Decision D17.) -/
def Obligations.RegistersButSpMatterOnlyAsOperands : Prop :=
  (∀ (i : Instr) (s : State) (r : Fin 8) (v : Int), r ≠ 7 → (∀ b ∈ i.regOperands, b.toNat ≠ r.val) →
    exec i (s.setReg r v) = onNext (fun u => u.setReg r v) (exec i s)) ∧
  ∀ (s t : State) (r : Fin 8), r ≠ 7 → step s = .next t → t.reg r ≠ s.reg r →
    ∃ (i : Instr) (rest : List Byte), decode s.bytesAtPc = .ok i rest ∧ ∃ b ∈ i.regOperands, b.toNat = r.val

/-- 10_state.md R21 and 60_exceptions.md R152: the first register operand outside 0..7, A before B, raises
InvalidRegister with the byte, before the instruction writes anything (decisions D4, D5); and nothing else raises it. The
register operands of each instruction are `Instr.regOperands`: LDI's immediate is not one. -/
def Obligations.BadRegisterOperandsFaultBeforeAnyWrite : Prop :=
  (∀ (i : Instr) (s : State) (b : Byte), firstBadRegister i = some b →
    8 ≤ b.toNat ∧ exec i s = .next (FaultedFrom s .invalidRegister (zext9 b))) ∧
  ∀ (i : Instr) (s t : State), firstBadRegister i = none → exec i s = .next t →
    t.cause = some .invalidRegister → s.cause = some .invalidRegister

/-- No instruction stops the model, and none writes the pc, the instruction register or the host's answers during its
execution. Derived: the spec marks it as its inference that the pc is not written in steps 1 to 5
(40_execution_loop.md R86). -/
def Obligations.EveryInstructionExecutesWithoutWritingThePc : Prop :=
  ∀ (i : Instr) (s : State), ∃ t, exec i s = .next t ∧ SameSequencing s t

/-! ### The ALU instructions: result, completion, frame and operand checks -/

/-- 41_alu.md R101. -/
def Obligations.AddWritesTheSumMod256 : Prop :=
  WritesBinary .add Always (fun va vb r => r.toNat = (va.toNat + vb.toNat) % 256) ∧ ChecksBinary .add ∧ EncodedBinary 0xA0 .add

/-- 41_alu.md R102: true subtraction, mod 256. -/
def Obligations.SubWritesTheDifferenceMod256 : Prop :=
  WritesBinary .sub Always (fun va vb r => (r.toNat : Int) = ((va.toNat : Int) - (vb.toNat : Int)) % 256) ∧
    ChecksBinary .sub ∧ EncodedBinary 0xA1 .sub

/-- 41_alu.md R103. -/
def Obligations.MulWritesTheLowByteOfTheProduct : Prop :=
  WritesBinary .mul Always (fun va vb r => r.toNat = (va.toNat * vb.toNat) % 256) ∧ ChecksBinary .mul ∧ EncodedBinary 0xA2 .mul

/-- 41_alu.md R104: the unsigned quotient, and the DivisionByZero outcome (60_exceptions.md R156, decision D10) when
the divisor is 0. -/
def Obligations.DivWritesTheQuotientAndHaltsOnZero : Prop :=
  WritesBinary .div (fun _ vb => vb ≠ 0) (fun va vb r => r.toNat = va.toNat / vb.toNat) ∧
    HaltsOnZero .div ∧ ChecksBinary .div ∧ EncodedBinary 0xA3 .div

/-- 41_alu.md R105: the unsigned remainder, and the same outcome when the divisor is 0. -/
def Obligations.ModWritesTheRemainderAndHaltsOnZero : Prop :=
  WritesBinary .mod (fun _ vb => vb ≠ 0) (fun va vb r => r.toNat = va.toNat - vb.toNat * (va.toNat / vb.toNat)) ∧
    HaltsOnZero .mod ∧ ChecksBinary .mod ∧ EncodedBinary 0xA4 .mod

/-- 41_alu.md R106, bit by bit. -/
def Obligations.AndWritesTheBitwiseAnd : Prop :=
  WritesBinary .and Always (fun va vb r => ∀ i < 8, r.getLsbD i = (va.getLsbD i && vb.getLsbD i)) ∧ ChecksBinary .and ∧ EncodedBinary 0xA8 .and

/-- 41_alu.md R107, bit by bit. -/
def Obligations.OrWritesTheBitwiseOr : Prop :=
  WritesBinary .or Always (fun va vb r => ∀ i < 8, r.getLsbD i = (va.getLsbD i || vb.getLsbD i)) ∧ ChecksBinary .or ∧ EncodedBinary 0xAA .or

/-- 41_alu.md R108, bit by bit. -/
def Obligations.XorWritesTheBitwiseXor : Prop :=
  WritesBinary .xor Always (fun va vb r => ∀ i < 8, r.getLsbD i = (va.getLsbD i ^^ vb.getLsbD i)) ∧ ChecksBinary .xor ∧ EncodedBinary 0xAB .xor

/-- 41_alu.md R109: a logical shift left by the whole amount, so that 8 or more gives 0. (That the amount is not
reduced is the spec's inference: basis derived.) -/
def Obligations.ShlShiftsLeftByTheWholeAmount : Prop :=
  WritesBinary .shl Always
      (fun va vb r => r.toNat = (va.toNat * 2 ^ vb.toNat) % 256 ∧ (8 ≤ vb.toNat → r = 0)) ∧ ChecksBinary .shl ∧ EncodedBinary 0xAC .shl

/-- 41_alu.md R110: a logical shift right by the whole amount, so that 8 or more gives 0. -/
def Obligations.ShrShiftsRightByTheWholeAmount : Prop :=
  WritesBinary .shr Always
      (fun va vb r => r.toNat = va.toNat / 2 ^ vb.toNat ∧ (8 ≤ vb.toNat → r = 0)) ∧ ChecksBinary .shr ∧ EncodedBinary 0xAD .shr

/-- 41_alu.md R111. -/
def Obligations.IncAddsOneMod256 : Prop :=
  WritesUnary .inc (fun va r => r.toNat = (va.toNat + 1) % 256) ∧ ChecksUnary .inc ∧ EncodedUnary 0x65 .inc

/-- 41_alu.md R112: 0 gives 255, R7 included. -/
def Obligations.DecSubtractsOneMod256 : Prop :=
  WritesUnary .dec (fun va r => (r.toNat : Int) = ((va.toNat : Int) - 1) % 256) ∧ ChecksUnary .dec ∧ EncodedUnary 0x66 .dec

/-- 41_alu.md R113: 255 - va, which is the complement bit by bit. -/
def Obligations.NotComplementsEveryBit : Prop :=
  WritesUnary .not (fun va r => r.toNat = 255 - va.toNat ∧ ∀ i < 8, r.getLsbD i = !va.getLsbD i) ∧ ChecksUnary .not ∧ EncodedUnary 0x69 .not

/-- DIV and MOD from one state satisfy `va = vb * q + r` with `r < vb`. Derived: the spec marks the laws of the ALU as
its inference (41_alu.md R114). -/
def Obligations.QuotientAndRemainderRebuildTheDividend : Prop :=
  ∀ (s : State) (ra rb : Byte) (ha : ra.toNat < 8) (hb : rb.toNat < 8), s.reg ⟨rb.toNat, hb⟩ ≠ 0 →
    ∃ t u, exec (.div ra rb) s = .next t ∧ exec (.mod ra rb) s = .next u ∧
      (s.reg ⟨ra.toNat, ha⟩).toNat =
        (s.reg ⟨rb.toNat, hb⟩).toNat * (t.reg ⟨ra.toNat, ha⟩).toNat + (u.reg ⟨ra.toNat, ha⟩).toNat ∧
      (u.reg ⟨ra.toNat, ha⟩).toNat < (s.reg ⟨rb.toNat, hb⟩).toNat

/-- 41_alu.md R115: on the ALU path a mnemonic that is none of the 13 operations raises UnsupportedOperation with the
opcode byte, after the register checks and before the DivisionByZero check; and no step of this hardware raises it.
(Decision D20.) -/
def Obligations.UnsupportedOperationIsCheckedAndNeverOccurs : Prop :=
  (∀ (s : State) (m : Mnemonic) (ra rb : Byte), m ∈ [Mnemonic.hlt, .ldi, .prn, .push, .pop] →
    ra.toNat < 8 → rb.toNat < 8 →
      s.aluBinary m ra rb = FaultedFrom s .unsupportedOperation (zext9 s.ir) ∧
        s.aluUnary m ra = FaultedFrom s .unsupportedOperation (zext9 s.ir)) ∧
  (∀ (s : State) (m : Mnemonic) (ra : Byte), 8 ≤ ra.toNat →
    (∀ rb, s.aluBinary m ra rb = FaultedFrom s .invalidRegister (zext9 ra)) ∧
      s.aluUnary m ra = FaultedFrom s .invalidRegister (zext9 ra)) ∧
  (∀ (s : State) (m : Mnemonic) (ra rb : Byte), ra.toNat < 8 → 8 ≤ rb.toNat →
    s.aluBinary m ra rb = FaultedFrom s .invalidRegister (zext9 rb)) ∧
  ∀ s t : State, s.cause ≠ some .unsupportedOperation → step s = .next t → t.cause ≠ some .unsupportedOperation

/-! ### HLT, LDI, PRN -/

/-- HLT: Halted, with cause and info 0, and nothing else written; a step that fetches the HLT byte does so at every pc,
255 included, since no operand is read. Derived: that the pc keeps the address of the HLT
byte is the spec's inference (42_control_io.md R130; log entry 4). -/
def Obligations.HltHaltsAndWritesNothingElse : Prop :=
  (∀ s : State, exec .hlt s = .next { s with runState := .halted, cause := none, info := 0 }) ∧
    (∀ rest, decode (0x01 :: rest) = .ok .hlt rest) ∧
    ∀ s : State, Enabled s → s.mem.read s.pc.toNat = 0x01 →
      step s = .next { atExecute s with runState := .halted, cause := none, info := 0 }

/-- 42_control_io.md R131: in execution, and in a step that does not end at address 255 (AdvanceFollowsTheInstruction
states the others). -/
def Obligations.LdiLoadsTheImmediate : Prop :=
  (∀ (s : State) (ra imm : Byte) (ha : ra.toNat < 8),
    ∃ t, exec (.ldi ra imm) s = .next t ∧ t.reg ⟨ra.toNat, ha⟩ = imm ∧ OnlyRegister ⟨ra.toNat, ha⟩ s t) ∧
  (∀ (s : State) (ra imm : Byte), 8 ≤ ra.toNat →
    exec (.ldi ra imm) s = .next (FaultedFrom s .invalidRegister (zext9 ra))) ∧
  EncodedBinary 0x82 .ldi ∧
  ∀ (s : State) (ra imm : Byte) (rest : List Byte) (ha : ra.toNat < 8), Enabled s →
    decode s.bytesAtPc = .ok (.ldi ra imm) rest → s.pc.toNat + 3 ≤ 255 →
      ∃ t, step s = .next t ∧ t.reg ⟨ra.toNat, ha⟩ = imm ∧ t.pc.toNat = s.pc.toNat + 3 ∧
        SameRegsBut [⟨ra.toNat, ha⟩] s t ∧ SameMemory s t

/-- 42_control_io.md R132: one Print event with the register's value, and no register or memory written; at address
254 the event stands and the advance then faults (R88, decision D3). -/
def Obligations.PrnSendsTheRegisterToTheReporter : Prop :=
  (∀ (s : State) (ra : Byte) (ha : ra.toNat < 8),
    exec (.prn ra) s = .next { s with events := s.events ++ [.print (s.reg ⟨ra.toNat, ha⟩)] }) ∧
  ChecksUnary .prn ∧ EncodedUnary 0x47 .prn ∧
  ∀ (s : State) (ra : Byte) (rest : List Byte) (ha : ra.toNat < 8), Enabled s →
    decode s.bytesAtPc = .ok (.prn ra) rest → s.pc = 254 →
      step s = .next (FaultedFrom { atExecute s with events := s.events ++ [.print (s.reg ⟨ra.toNat, ha⟩)] }
        .addressOutOfBounds 256)

/-! ### PUSH and POP -/

/-- 43_stack.md R140: the byte below SP takes the register's value (the decremented SP for R7, decision D7), SP moves
down by one, every other byte and register is as before; at SP = 0 StackUnderflow(0) is raised and nothing is written
(decision D4). The address stored to is the meaning's own `pushAddress`, and it is SP - 1. -/
def Obligations.PushStoresBelowTheStackPointer : Prop :=
  (∀ (s : State) (ra : Byte) (ha : ra.toNat < 8), s.sp ≠ 0 →
    ∃ t, exec (.push ra) s = .next t ∧ s.pushAddress = s.sp.toNat - 1 ∧
      (t.mem.read s.pushAddress).toNat =
        (if ra.toNat = 7 then s.sp.toNat - 1 else (s.reg ⟨ra.toNat, ha⟩).toNat) ∧
      (∀ a, a ≠ s.pushAddress → t.mem.read a = s.mem.read a) ∧
      t.sp.toNat = s.sp.toNat - 1 ∧ SameRegsBut [7] s t ∧ SameStatus s t ∧ SameSequencing s t ∧
      t.events = s.events) ∧
  (∀ (s : State) (ra : Byte), ra.toNat < 8 → s.sp = 0 →
    exec (.push ra) s = .next (FaultedFrom s .stackUnderflow 0)) ∧
  ChecksUnary .push ∧ EncodedUnary 0x45 .push

/-- 43_stack.md R141: the register takes the byte at SP, and SP then moves up by one, mod 256, so that POP R7 leaves
that byte plus 1 (decisions D8, D9); no byte of memory changes; at SP = 0xF4 StackUnderflow(0xF4) is raised and
nothing is written. -/
def Obligations.PopLoadsTheTopOfTheStack : Prop :=
  (∀ (s : State) (ra : Byte) (ha : ra.toNat < 8), s.sp ≠ 0xF4 →
    ∃ t, exec (.pop ra) s = .next t ∧
      (ra.toNat ≠ 7 → t.reg ⟨ra.toNat, ha⟩ = s.mem.read s.sp.toNat ∧ t.sp.toNat = (s.sp.toNat + 1) % 256) ∧
      (ra.toNat = 7 → t.sp.toNat = ((s.mem.read s.sp.toNat).toNat + 1) % 256) ∧
      SameRegsBut [⟨ra.toNat, ha⟩, 7] s t ∧ SameMemory s t ∧ SameStatus s t ∧ SameSequencing s t ∧
      t.events = s.events) ∧
  (∀ (s : State) (ra : Byte), ra.toNat < 8 → s.sp = 0xF4 →
    exec (.pop ra) s = .next (FaultedFrom s .stackUnderflow 0xF4)) ∧
  ChecksUnary .pop ∧ EncodedUnary 0x46 .pop

/-- A PUSH followed at once by a POP of the same register leaves every register, SP included, as it was, unless SP is 0
or 0xF5. Derived: the spec marks it as its inference (43_stack.md R142). -/
def Obligations.PopAfterPushRestoresTheRegisters : Prop :=
  ∀ (s : State) (ra : Byte), ra.toNat < 8 → s.sp ≠ 0 → s.sp ≠ 0xF5 →
    ∃ t, execAll [.push ra, .pop ra] s = .next t ∧ t.regs = s.regs ∧
      (∀ a, a ≠ s.pushAddress → t.mem.read a = s.mem.read a)

/-- From SP = 0xF4 the stack takes 244 elements, and the next PUSH raises StackUnderflow. Derived: the spec marks it as
its inference (43_stack.md R143). -/
def Obligations.TheStackHolds244Elements : Prop :=
  ∀ (s : State) (ra : Byte), ra.toNat < 8 → s.sp = 0xF4 →
    (∀ n, n ≤ 244 → ∃ t, execAll (List.replicate n (.push ra)) s = .next t ∧ t.sp.toNat = 244 - n ∧
      SameStatus s t) ∧
    ∃ t, execAll (List.replicate 245 (.push ra)) s = .next t ∧ t.cause = some .stackUnderflow ∧
      t.runState = .faulted
end

