-- ==== Sys2Proof/Laws/Decode.lean ====
section
/-! SUPPORT. What the Dispatcher and the decoder answer (30_encoding.md R66, R69, R71). -/

namespace Sys2Proof

/-- The count field of each opcode byte is the number of operand bytes of its format (R66, R67). -/
theorem operandCountOf_opcode (m : Mnemonic) : operandCountOf m.opcode = m.format.length - 1 := by
  cases m <;> decide

/-- The Dispatcher gives each opcode byte its own mnemonic, with the count and the flag of the byte's bits. -/
theorem dispatch_opcode (m : Mnemonic) :
    dispatch m.opcode = some ⟨m, m.format.length - 1, isAlu m.opcode⟩ := by
  cases m <;> decide

/-- The ALU flag of each opcode byte is the one R66 fixes for its mnemonic. -/
theorem isAlu_opcode (m : Mnemonic) : isAlu m.opcode = m.isAlu := by
  cases m <;> decide

/-- The Dispatcher gives each opcode byte the descriptor R66 fixes for its mnemonic. -/
theorem dispatch_opcode_descriptor (m : Mnemonic) : dispatch m.opcode = some m.descriptor := by
  rw [dispatch_opcode, isAlu_opcode, Mnemonic.descriptor]

/-- The map of R66 meets the encoding contract (00_scope.md R7). -/
theorem opcodeMapOk_opcodeMap : opcodeMapOk opcodeMap = true := by decide

theorem dispatch_table : ∀ b : Byte, ∀ d ∈ dispatch b, d.mnemonic.opcode = b := by decide +kernel

/-- A byte the Dispatcher knows is the opcode byte of the mnemonic it answers. -/
theorem dispatch_eq_some {b : Byte} {d : Descriptor} (h : dispatch b = some d) : b = d.mnemonic.opcode :=
  (dispatch_table b d h).symm

/-- What the Dispatcher answers for a byte it knows agrees with the byte's bits. -/
theorem dispatch_eq_some_iff {b : Byte} {d : Descriptor} :
    dispatch b = some d ↔ b = d.mnemonic.opcode ∧ d = ⟨d.mnemonic, d.mnemonic.format.length - 1, isAlu d.mnemonic.opcode⟩ := by
  constructor
  · intro h
    have e := dispatch_eq_some h
    have h2 := dispatch_opcode d.mnemonic
    rw [← e, h, Option.some.injEq, e] at h2
    exact ⟨e, h2⟩
  · rintro ⟨rfl, e⟩
    rw [dispatch_opcode]
    exact congrArg some e.symm

/-- The instruction built from a mnemonic and its operand bytes has that mnemonic and those operands. -/
theorem buildInstr_eq_some {m : Mnemonic} {ops : List Byte} {i : Instr} (h : buildInstr m ops = some i) :
    i.mnemonic = m ∧ i.operands = ops := by
  unfold buildInstr at h
  split at h <;> simp_all <;> subst h <;> exact ⟨rfl, rfl⟩

/-- With as many operand bytes as the format takes, there is an instruction. -/
theorem buildInstr_isSome {m : Mnemonic} {ops : List Byte} (h : ops.length = m.format.length - 1) :
    (buildInstr m ops).isSome = true := by
  match ops with
  | [] => cases m <;> simp_all [Mnemonic.format, Format.length, buildInstr]
  | [a] => cases m <;> simp_all [Mnemonic.format, Format.length, buildInstr]
  | [a, b] => cases m <;> simp_all [Mnemonic.format, Format.length, buildInstr]
  | a :: b :: c :: l => cases m <;> simp_all [Mnemonic.format, Format.length]

end Sys2Proof
end

