-- ==== Sys2Proof/Laws/Memory.lean ====
section
/-! SUPPORT. What memory reads as after a write, and that every memory operation keeps the canonical form
(20_memory.md R40, R41, R49). -/

namespace Sys2Proof.Machine

@[simp] theorem Memory.read_nil (a : Nat) : Memory.read [] a = Config.unlistedByte := rfl

/-- Cells of other addresses do not matter to a read. -/
theorem Memory.read_filter_ne (m : Memory) {a b : Nat} (h : b ≠ a) :
    Memory.read (m.filter (fun c => c.1 ≠ a)) b = m.read b := by
  induction m with
  | nil => rfl
  | cons c m ih =>
    by_cases hc : c.1 = a
    · have : c.1 ≠ b := fun e => h (e ▸ hc)
      simp_all [Memory.read]
    · simp_all [Memory.read]

/-- An address without a cell reads as 0. -/
theorem Memory.read_filter_self (m : Memory) (a : Nat) :
    Memory.read (m.filter (fun c => c.1 ≠ a)) a = Config.unlistedByte := by
  induction m with
  | nil => rfl
  | cons c m ih => by_cases hc : c.1 = a <;> simp_all [Memory.read]

theorem Memory.read_insert_other (m : Memory) {a b : Nat} (v : Byte) (h : b ≠ a) :
    (Memory.insert a v m).read b = m.read b := by
  induction m with
  | nil => simp [Memory.insert, Memory.read, Ne.symm h]
  | cons c m ih =>
    rw [Memory.insert]
    by_cases hc : a < c.1
    · simp [hc, Memory.read, Ne.symm h]
    · simp [hc, Memory.read, ih]

theorem Memory.read_insert_self (m : Memory) (a : Nat) (v : Byte) (h : ∀ c ∈ m, c.1 ≠ a) :
    (Memory.insert a v m).read a = v := by
  induction m with
  | nil => simp [Memory.insert, Memory.read]
  | cons c m ih =>
    have h1 := h c (by simp)
    have h2 := ih (fun d hd => h d (by simp [hd]))
    rw [Memory.insert]
    by_cases hc : a < c.1
    · simp [hc, Memory.read]
    · simp [hc, Memory.read, h1, h2]

/-- A byte written reads back, in every memory (20_memory.md R41). -/
@[simp] theorem Memory.read_write_self (m : Memory) (a : Nat) (v : Byte) : (m.write a v).read a = v := by
  unfold Memory.write
  split
  · next h => rw [h]; exact Memory.read_filter_self m a
  · exact Memory.read_insert_self _ a v (by simp)

/-- A write leaves every other address alone, in every memory (20_memory.md R42). -/
theorem Memory.read_write_other (m : Memory) {a b : Nat} (v : Byte) (h : b ≠ a) :
    (m.write a v).read b = m.read b := by
  unfold Memory.write
  split
  · exact Memory.read_filter_ne m h
  · rw [Memory.read_insert_other _ v h, Memory.read_filter_ne m h]

theorem Memory.mem_insert (a : Nat) (v : Byte) (m : Memory) (c : Host.Cell) :
    c ∈ Memory.insert a v m ↔ c = (a, v) ∨ c ∈ m := by
  induction m with
  | nil => simp [Memory.insert]
  | cons d m ih =>
    by_cases h : a < d.1
    · simp [Memory.insert, h]
    · simp only [Memory.insert, h, if_false, List.mem_cons, ih]; tauto

theorem Memory.insert_rising (a : Nat) (v : Byte) (m : Memory) (hm : m.Pairwise (fun c d => c.1 < d.1))
    (ha : ∀ c ∈ m, c.1 ≠ a) : (Memory.insert a v m).Pairwise (fun c d => c.1 < d.1) := by
  induction m with
  | nil => simp [Memory.insert]
  | cons d m ih =>
    rw [List.pairwise_cons] at hm
    by_cases h : a < d.1
    · simp only [Memory.insert, h, if_true]
      refine List.pairwise_cons.2 ⟨?_, List.pairwise_cons.2 hm⟩
      intro c hc
      rcases List.mem_cons.1 hc with rfl | hc
      · exact h
      · exact Nat.lt_trans h (hm.1 c hc)
    · simp only [Memory.insert, h, if_false]
      refine List.pairwise_cons.2 ⟨?_, ih hm.2 (fun c hc => ha c (by simp [hc]))⟩
      intro c hc
      rcases (Memory.mem_insert a v m c).1 hc with rfl | hc
      · have := ha d (by simp)
        show d.1 < a
        omega
      · exact hm.1 c hc

/-- A write inside the address space keeps the canonical form. -/
theorem Memory.write_wf {m : Memory} (hm : m.wf) {a : Nat} (ha : a < Config.memSize) (v : Byte) :
    (m.write a v).wf := by
  have hp : (m.filter (fun c => c.1 ≠ a)).Pairwise (fun c d => c.1 < d.1) := hm.1.filter _
  have hall : ∀ c ∈ m.filter (fun c => c.1 ≠ a), c.1 < Config.memSize ∧ c.2 ≠ Config.unlistedByte :=
    fun c hc => hm.2 c (List.mem_filter.1 hc).1
  unfold Memory.write
  split
  · exact ⟨hp, hall⟩
  · next hv =>
    refine ⟨Memory.insert_rising a v _ hp (by simp), ?_⟩
    intro c hc
    rcases (Memory.mem_insert a v _ c).1 hc with rfl | hc
    · exact ⟨ha, hv⟩
    · exact hall c hc

/-- Loading bytes inside the address space keeps the canonical form. -/
theorem Memory.load_wf (vs : List Byte) : ∀ {m : Memory}, m.wf → ∀ {a : Nat}, a + vs.length ≤ Config.memSize →
    (m.load a vs).wf := by
  induction vs with
  | nil => intro m hm a _; exact hm
  | cons v vs ih =>
    intro m hm a ha
    rw [List.length_cons] at ha
    exact ih (Memory.write_wf hm (by omega) v) (by omega)

/-- After loading bytes from `a` up, the `k`-th of them stands at `a + k`, and every other address is as before. -/
theorem Memory.read_load (vs : List Byte) : ∀ (m : Memory) (a b : Nat),
    (m.load a vs).read b = if h : a ≤ b ∧ b - a < vs.length then vs[b - a]'h.2 else m.read b := by
  induction vs with
  | nil => intro m a b; simp [Memory.load]
  | cons v vs ih =>
    intro m a b
    rw [Memory.load, ih]
    by_cases hab : b = a
    · subst hab; simp
    · rw [Memory.read_write_other _ _ hab]
      by_cases h : a + 1 ≤ b ∧ b - (a + 1) < vs.length
      · have e : b - a = (b - (a + 1)) + 1 := by omega
        have h2 : a ≤ b ∧ b - a < (v :: vs).length := by simp only [List.length_cons]; omega
        rw [dif_pos h, dif_pos h2]
        simp only [e, List.getElem_cons_succ]
      · have h2 : ¬ (a ≤ b ∧ b - a < (v :: vs).length) := by simp only [List.length_cons]; omega
        rw [dif_neg h, dif_neg h2]

end Sys2Proof.Machine
end

