-- ==== Sys2Proof/Laws/State.lean ====
section
/-! SUPPORT. One lemma per field per update of the state, true by rfl, so that no proof unfolds a record update; and
what a register reads as after each of them. -/

namespace Sys2Proof.Machine

variable (s : State)

@[simp] theorem setReg_regs (r : Fin 8) (v : Int) : (s.setReg r v).regs = s.regs.set r (BitVec.ofInt 8 v) := rfl
@[simp] theorem setReg_pc (r : Fin 8) (v : Int) : (s.setReg r v).pc = s.pc := rfl
@[simp] theorem setReg_mem (r : Fin 8) (v : Int) : (s.setReg r v).mem = s.mem := rfl
@[simp] theorem setReg_ir (r : Fin 8) (v : Int) : (s.setReg r v).ir = s.ir := rfl
@[simp] theorem setReg_runState (r : Fin 8) (v : Int) : (s.setReg r v).runState = s.runState := rfl
@[simp] theorem setReg_cause (r : Fin 8) (v : Int) : (s.setReg r v).cause = s.cause := rfl
@[simp] theorem setReg_info (r : Fin 8) (v : Int) : (s.setReg r v).info = s.info := rfl
@[simp] theorem setReg_events (r : Fin 8) (v : Int) : (s.setReg r v).events = s.events := rfl
@[simp] theorem setReg_hostStop (r : Fin 8) (v : Int) : (s.setReg r v).hostStop = s.hostStop := rfl

@[simp] theorem emit_regs (e : Event) : (s.emit e).regs = s.regs := rfl
@[simp] theorem emit_pc (e : Event) : (s.emit e).pc = s.pc := rfl
@[simp] theorem emit_mem (e : Event) : (s.emit e).mem = s.mem := rfl
@[simp] theorem emit_ir (e : Event) : (s.emit e).ir = s.ir := rfl
@[simp] theorem emit_runState (e : Event) : (s.emit e).runState = s.runState := rfl
@[simp] theorem emit_cause (e : Event) : (s.emit e).cause = s.cause := rfl
@[simp] theorem emit_info (e : Event) : (s.emit e).info = s.info := rfl
@[simp] theorem emit_events (e : Event) : (s.emit e).events = s.events ++ [e] := rfl
@[simp] theorem emit_hostStop (e : Event) : (s.emit e).hostStop = s.hostStop := rfl

@[simp] theorem raise_regs (k : FaultKind) (n : BitVec 9) : (s.raise k n).regs = s.regs := rfl
@[simp] theorem raise_pc (k : FaultKind) (n : BitVec 9) : (s.raise k n).pc = s.pc := rfl
@[simp] theorem raise_mem (k : FaultKind) (n : BitVec 9) : (s.raise k n).mem = s.mem := rfl
@[simp] theorem raise_ir (k : FaultKind) (n : BitVec 9) : (s.raise k n).ir = s.ir := rfl
@[simp] theorem raise_runState (k : FaultKind) (n : BitVec 9) : (s.raise k n).runState = .faulted := rfl
@[simp] theorem raise_cause (k : FaultKind) (n : BitVec 9) : (s.raise k n).cause = some k := rfl
@[simp] theorem raise_info (k : FaultKind) (n : BitVec 9) : (s.raise k n).info = n := rfl
@[simp] theorem raise_events (k : FaultKind) (n : BitVec 9) : (s.raise k n).events = s.events ++ [.diag k n] := rfl
@[simp] theorem raise_hostStop (k : FaultKind) (n : BitVec 9) : (s.raise k n).hostStop = s.hostStop := rfl

@[simp] theorem haltDz_regs (n : BitVec 9) : (s.haltDz n).regs = s.regs := rfl
@[simp] theorem haltDz_pc (n : BitVec 9) : (s.haltDz n).pc = s.pc := rfl
@[simp] theorem haltDz_mem (n : BitVec 9) : (s.haltDz n).mem = s.mem := rfl
@[simp] theorem haltDz_ir (n : BitVec 9) : (s.haltDz n).ir = s.ir := rfl
@[simp] theorem haltDz_runState (n : BitVec 9) : (s.haltDz n).runState = .halted := rfl
@[simp] theorem haltDz_cause (n : BitVec 9) : (s.haltDz n).cause = some .divisionByZero := rfl
@[simp] theorem haltDz_info (n : BitVec 9) : (s.haltDz n).info = n := rfl
@[simp] theorem haltDz_events (n : BitVec 9) : (s.haltDz n).events = s.events ++ [.diag .divisionByZero n] := rfl
@[simp] theorem haltDz_hostStop (n : BitVec 9) : (s.haltDz n).hostStop = s.hostStop := rfl

@[simp] theorem stopByHost_regs : (s.stopByHost).regs = s.regs := rfl
@[simp] theorem stopByHost_pc : (s.stopByHost).pc = s.pc := rfl
@[simp] theorem stopByHost_mem : (s.stopByHost).mem = s.mem := rfl
@[simp] theorem stopByHost_ir : (s.stopByHost).ir = s.ir := rfl
@[simp] theorem stopByHost_runState : (s.stopByHost).runState = .stopped := rfl
@[simp] theorem stopByHost_cause : (s.stopByHost).cause = none := rfl
@[simp] theorem stopByHost_info : (s.stopByHost).info = 0 := rfl
@[simp] theorem stopByHost_events : (s.stopByHost).events = s.events := rfl
@[simp] theorem stopByHost_hostStop : (s.stopByHost).hostStop = s.hostStop := rfl

@[simp] theorem hostStopAsked_regs : (s.hostStopAsked).regs = s.regs := rfl
@[simp] theorem hostStopAsked_pc : (s.hostStopAsked).pc = s.pc := rfl
@[simp] theorem hostStopAsked_mem : (s.hostStopAsked).mem = s.mem := rfl
@[simp] theorem hostStopAsked_ir : (s.hostStopAsked).ir = s.ir := rfl
@[simp] theorem hostStopAsked_runState : (s.hostStopAsked).runState = s.runState := rfl
@[simp] theorem hostStopAsked_cause : (s.hostStopAsked).cause = s.cause := rfl
@[simp] theorem hostStopAsked_info : (s.hostStopAsked).info = s.info := rfl
@[simp] theorem hostStopAsked_events : (s.hostStopAsked).events = s.events := rfl
@[simp] theorem hostStopAsked_hostStop : (s.hostStopAsked).hostStop = s.hostStop.tail := rfl

@[simp] theorem fetchOpcode_regs : (s.fetchOpcode).regs = s.regs := rfl
@[simp] theorem fetchOpcode_pc : (s.fetchOpcode).pc = s.pc := rfl
@[simp] theorem fetchOpcode_mem : (s.fetchOpcode).mem = s.mem := rfl
@[simp] theorem fetchOpcode_ir : (s.fetchOpcode).ir = s.mem.read s.pc.toNat := rfl
@[simp] theorem fetchOpcode_runState : (s.fetchOpcode).runState = s.runState := rfl
@[simp] theorem fetchOpcode_cause : (s.fetchOpcode).cause = s.cause := rfl
@[simp] theorem fetchOpcode_info : (s.fetchOpcode).info = s.info := rfl
@[simp] theorem fetchOpcode_events : (s.fetchOpcode).events = s.events := rfl
@[simp] theorem fetchOpcode_hostStop : (s.fetchOpcode).hostStop = s.hostStop := rfl

@[simp] theorem spDown_regs : (s.spDown).regs = s.regs.set 7 (BitVec.ofInt 8 ((s.sp.toNat : Int) - 1)) := rfl
@[simp] theorem spDown_pc : (s.spDown).pc = s.pc := rfl
@[simp] theorem spDown_mem : (s.spDown).mem = s.mem := rfl
@[simp] theorem spDown_ir : (s.spDown).ir = s.ir := rfl
@[simp] theorem spDown_runState : (s.spDown).runState = s.runState := rfl
@[simp] theorem spDown_cause : (s.spDown).cause = s.cause := rfl
@[simp] theorem spDown_info : (s.spDown).info = s.info := rfl
@[simp] theorem spDown_events : (s.spDown).events = s.events := rfl
@[simp] theorem spDown_hostStop : (s.spDown).hostStop = s.hostStop := rfl

@[simp] theorem spUp_regs : (s.spUp).regs = s.regs.set 7 (BitVec.ofInt 8 ((s.sp.toNat : Int) + 1)) := rfl
@[simp] theorem spUp_pc : (s.spUp).pc = s.pc := rfl
@[simp] theorem spUp_mem : (s.spUp).mem = s.mem := rfl
@[simp] theorem spUp_ir : (s.spUp).ir = s.ir := rfl
@[simp] theorem spUp_runState : (s.spUp).runState = s.runState := rfl
@[simp] theorem spUp_cause : (s.spUp).cause = s.cause := rfl
@[simp] theorem spUp_info : (s.spUp).info = s.info := rfl
@[simp] theorem spUp_events : (s.spUp).events = s.events := rfl
@[simp] theorem spUp_hostStop : (s.spUp).hostStop = s.hostStop := rfl

/-! ### Registers -/

/-- A register reads as the last value written to it, reduced mod 256 (10_state.md R22). -/
@[simp] theorem reg_setReg_same (r : Fin 8) (v : Int) : (s.setReg r v).reg r = BitVec.ofInt 8 v := by
  simp [State.reg]

theorem reg_setReg_other {r q : Fin 8} (v : Int) (h : q ≠ r) : (s.setReg r v).reg q = s.reg q := by
  have : r.val ≠ q.val := fun e => h (Fin.ext e.symm)
  simp [State.reg, this]

theorem reg_setReg (r q : Fin 8) (v : Int) :
    (s.setReg r v).reg q = if q = r then BitVec.ofInt 8 v else s.reg q := by
  by_cases h : q = r
  · subst h; simp
  · simp [h, reg_setReg_other s v h]

/-- Writing a byte's own value stores the byte. -/
@[simp] theorem ofInt_toNat (b : Byte) : BitVec.ofInt 8 (b.toNat : Int) = b := by
  simp

/-- The value a register write leaves, as a number (10_state.md R22). -/
theorem reg_setReg_toNat (r : Fin 8) (v : Int) : (((s.setReg r v).reg r).toNat : Int) = v % 256 := by
  simp [BitVec.toNat_ofInt]
  omega

@[simp] theorem reg_emit (e : Event) (q : Fin 8) : (s.emit e).reg q = s.reg q := rfl
@[simp] theorem reg_raise (k : FaultKind) (n : BitVec 9) (q : Fin 8) : (s.raise k n).reg q = s.reg q := rfl
@[simp] theorem reg_haltDz (n : BitVec 9) (q : Fin 8) : (s.haltDz n).reg q = s.reg q := rfl
@[simp] theorem reg_fetchOpcode (q : Fin 8) : s.fetchOpcode.reg q = s.reg q := rfl
@[simp] theorem reg_hostStopAsked (q : Fin 8) : s.hostStopAsked.reg q = s.reg q := rfl

/-- A register does not depend on what stands in memory. -/
@[simp] theorem reg_withMem (m : Memory) (q : Fin 8) : { s with mem := m }.reg q = s.reg q := rfl

/-- A register does not depend on the pc. -/
@[simp] theorem reg_withPc (p : Byte) (q : Fin 8) : { s with pc := p }.reg q = s.reg q := rfl

/-- Two register files that read alike are equal. -/
theorem regs_ext {s t : State} (h : ∀ r, t.reg r = s.reg r) : t.regs = s.regs := by
  apply Vector.ext
  intro i hi
  exact h ⟨i, hi⟩

end Sys2Proof.Machine
end

