-- ==== Sys2Proof/Laws/Ops.lean ====
section
/-! SUPPORT. For each shared operation, once, everything it can do. -/

namespace Sys2Proof.Machine

variable (s : State)

/-! ### Operands -/

theorem regOperand_of_lt {b : Byte} (h : b.toNat < 8) : regOperand b = some ⟨b.toNat, h⟩ := by
  simp [regOperand, h]

theorem regOperand_of_ge {b : Byte} (h : 8 ≤ b.toNat) : regOperand b = none := by
  simp [regOperand, Nat.not_lt.2 h]

theorem withReg_of_lt {b : Byte} (go : Fin 8 → State) (h : b.toNat < 8) : s.withReg b go = go ⟨b.toNat, h⟩ := by
  simp [State.withReg, regOperand_of_lt h]

theorem withReg_of_ge {b : Byte} (go : Fin 8 → State) (h : 8 ≤ b.toNat) :
    s.withReg b go = s.raise .invalidRegister (zext9 b) := by
  simp [State.withReg, regOperand_of_ge h]

/-- A register operand is checked, and then the instruction goes on or InvalidRegister is raised. -/
theorem withReg_cases (b : Byte) (go : Fin 8 → State) :
    (∃ h : b.toNat < 8, s.withReg b go = go ⟨b.toNat, h⟩) ∨
      (8 ≤ b.toNat ∧ s.withReg b go = s.raise .invalidRegister (zext9 b)) := by
  by_cases h : b.toNat < 8
  · exact .inl ⟨h, withReg_of_lt s go h⟩
  · exact .inr ⟨by omega, withReg_of_ge s go (by omega)⟩

theorem regByteOk_iff (b : Byte) : regByteOk b = true ↔ b.toNat < 8 := by simp [regByteOk]

/-- Taking a fatal fault leaves the state of 60_exceptions.md R155. -/
theorem raise_eq (k : FaultKind) (n : BitVec 9) : s.raise k n = FaultedFrom s k n := rfl

@[simp] theorem zext9_toNat (b : Byte) : (zext9 b).toNat = b.toNat := by
  have := b.isLt
  simp [zext9]
  omega

/-! ### Memory access -/

theorem memRead_of_lt {a : Nat} (h : a < Config.memSize) : s.memRead a = some (s.mem.read a) := by
  simp [State.memRead, h]

theorem memRead_of_ge {a : Nat} (h : Config.memSize ≤ a) : s.memRead a = none := by
  simp [State.memRead, Nat.not_lt.2 h]

theorem memWrite_of_lt {a : Nat} (v : Byte) (h : a < Config.memSize) :
    s.memWrite a v = some { s with mem := s.mem.write a v } := by
  simp [State.memWrite, h]

/-- A byte is always an address of memory (20_memory.md R46). -/
theorem byte_lt_memSize (b : Byte) : b.toNat < Config.memSize := b.isLt

/-! ### The ALU path -/

/-- The ALU path after the checks: the operation is not the ALU's, or it divides by 0, or one register is written. -/
theorem aluApply_cases (m : Mnemonic) (ra : Fin 8) (vb : Byte) :
    (aluFn m = none ∧ s.aluApply m ra vb = s.raise .unsupportedOperation (zext9 s.ir)) ∨
      (dividesBy m = true ∧ vb = 0 ∧ s.aluApply m ra vb = s.haltDz (zext9 s.ir)) ∨
        (∃ f, aluFn m = some f ∧ s.aluApply m ra vb = s.setReg ra (f (s.reg ra) vb)) := by
  unfold State.aluApply
  cases h : aluFn m with
  | none => exact .inl ⟨rfl, rfl⟩
  | some f =>
    by_cases hd : (dividesBy m && vb == 0) = true
    · rw [Bool.and_eq_true, beq_iff_eq] at hd
      exact .inr (.inl ⟨hd.1, hd.2, by simp [hd.1, hd.2]⟩)
    · exact .inr (.inr ⟨f, rfl, if_neg hd⟩)

theorem aluBinary_of_lt (m : Mnemonic) {a b : Byte} (ha : a.toNat < 8) (hb : b.toNat < 8) :
    s.aluBinary m a b = s.aluApply m ⟨a.toNat, ha⟩ (s.reg ⟨b.toNat, hb⟩) := by
  rw [State.aluBinary, withReg_of_lt s _ ha, withReg_of_lt s _ hb]

theorem aluUnary_of_lt (m : Mnemonic) {a : Byte} (ha : a.toNat < 8) :
    s.aluUnary m a = s.aluApply m ⟨a.toNat, ha⟩ 0 := by
  rw [State.aluUnary, withReg_of_lt s _ ha]

/-! ### The stack pointer -/

theorem sp_eq_reg : s.sp = s.reg 7 := rfl

theorem toNat_pos_of_ne_zero {b : Byte} (h : b ≠ 0) : 0 < b.toNat :=
  Nat.pos_of_ne_zero fun e => h (BitVec.eq_of_toNat_eq e)

/-- While SP is not 0, PUSH's decrement takes 1 from it, without a wrap. -/
theorem sp_spDown (h : s.sp ≠ 0) : s.spDown.sp.toNat = s.sp.toNat - 1 := by
  have h0 := toNat_pos_of_ne_zero h
  have hb := s.sp.isLt
  have e : s.spDown.sp = BitVec.ofInt 8 ((s.sp.toNat : Int) - 1) := reg_setReg_same s Config.spIndex _
  rw [e, BitVec.toNat_ofInt]
  omega

/-- POP's increment adds 1 to SP, mod 256. -/
theorem sp_spUp : s.spUp.sp.toNat = (s.sp.toNat + 1) % 256 := by
  have e : s.spUp.sp = BitVec.ofInt 8 ((s.sp.toNat : Int) + 1) := reg_setReg_same s Config.spIndex _
  rw [e, BitVec.toNat_ofInt]
  omega

theorem reg_spDown_other {r : Fin 8} (h : r ≠ 7) : s.spDown.reg r = s.reg r := reg_setReg_other s _ h

theorem reg_spUp_other {r : Fin 8} (h : r ≠ 7) : s.spUp.reg r = s.reg r := reg_setReg_other s _ h

/-- While SP is not 0, PUSH stores at the address below it. -/
theorem pushAddress_eq (h : s.sp ≠ 0) : s.pushAddress = s.sp.toNat - 1 := sp_spDown s h

/-! ### The advance -/

/-- Step 6 does nothing, or raises AddressOutOfBounds, or moves the pc past the instruction. -/
theorem advance_cases :
    (s.runState ≠ .running ∧ s.advance = s) ∨
      (s.runState = .running ∧ 255 < s.pc.toNat + operandCountOf s.ir + 1 ∧
        s.advance = s.raiseOutOfBounds (s.pc.toNat + operandCountOf s.ir + 1)) ∨
        (s.runState = .running ∧ s.pc.toNat + operandCountOf s.ir + 1 ≤ 255 ∧
          s.advance = { s with pc := BitVec.ofNat 8 (s.pc.toNat + operandCountOf s.ir + 1) }) := by
  unfold State.advance
  by_cases h : s.runState = .running
  · by_cases h2 : 255 < s.pc.toNat + operandCountOf s.ir + 1
    · exact .inr (.inl ⟨h, h2, by simp [h, h2]⟩)
    · exact .inr (.inr ⟨h, by omega, by simp [h, h2]⟩)
  · exact .inl ⟨h, by simp [h]⟩

/-! ### Reading the instruction's bytes -/

/-- Reading `n` bytes from `a` answers exactly those bytes while they lie in memory. -/
theorem readBytes_of_le : ∀ (n a : Nat), a + n ≤ Config.memSize →
    s.readBytes a n = .ok ((List.range n).map (fun k => s.mem.read (a + k)))
  | 0, a, _ => rfl
  | n + 1, a, h => by
    rw [State.readBytes, memRead_of_lt s (by omega), readBytes_of_le n (a + 1) (by omega)]
    simp [List.range_succ_eq_map, Nat.add_comm, Nat.add_left_comm]

/-- Reading past the end answers the first address that is out of range. -/
theorem readBytes_of_gt : ∀ (n a : Nat), a ≤ Config.memSize → Config.memSize < a + n →
    s.readBytes a n = .error Config.memSize
  | 0, a, h, h2 => by omega
  | n + 1, a, h, h2 => by
    rw [State.readBytes]
    by_cases ha : a = Config.memSize
    · rw [memRead_of_ge s (by omega), ha]
    · rw [memRead_of_lt s (by omega), readBytes_of_gt n (a + 1) (by omega) (by omega)]

end Sys2Proof.Machine
end

