-- ==== Sys2Proof/Laws/PerInstr.lean ====
section
/-! SUPPORT. Per instruction: the encoder's opcode byte meets the encoding contract (00_scope.md R7; 30_encoding.md
R61, R66). Bits 7:6 count the operand bytes that follow, and the Dispatcher gives the instruction's own
descriptor, whose count and ALU flag are the byte's and the ones R66 fixes for the instruction. -/

namespace Sys2Proof.Laws.OpcodeContract

/-- What is said of each instruction. -/
def Statement (i : Instr) : Prop :=
  operandCountOf i.mnemonic.opcode = i.operands.length ∧ i.mnemonic.format.length = (encode i).length ∧
    isAlu i.mnemonic.opcode = i.mnemonic.isAlu ∧
    dispatch i.mnemonic.opcode = some ⟨i.mnemonic, i.operands.length, i.mnemonic.isAlu⟩

end Sys2Proof.Laws.OpcodeContract

open Sys2Proof

theorem Sys2Proof.Laws.OpcodeContract.hlt : Statement .hlt :=
  ⟨operandCountOf_opcode .hlt, rfl, isAlu_opcode .hlt, dispatch_opcode_descriptor .hlt⟩
theorem Sys2Proof.Laws.OpcodeContract.ldi (a b : Sys2Proof.Byte) : Statement (.ldi a b) :=
  ⟨operandCountOf_opcode .ldi, rfl, isAlu_opcode .ldi, dispatch_opcode_descriptor .ldi⟩
theorem Sys2Proof.Laws.OpcodeContract.prn (a : Sys2Proof.Byte) : Statement (.prn a) :=
  ⟨operandCountOf_opcode .prn, rfl, isAlu_opcode .prn, dispatch_opcode_descriptor .prn⟩
theorem Sys2Proof.Laws.OpcodeContract.push (a : Sys2Proof.Byte) : Statement (.push a) :=
  ⟨operandCountOf_opcode .push, rfl, isAlu_opcode .push, dispatch_opcode_descriptor .push⟩
theorem Sys2Proof.Laws.OpcodeContract.pop (a : Sys2Proof.Byte) : Statement (.pop a) :=
  ⟨operandCountOf_opcode .pop, rfl, isAlu_opcode .pop, dispatch_opcode_descriptor .pop⟩
theorem Sys2Proof.Laws.OpcodeContract.add (a b : Sys2Proof.Byte) : Statement (.add a b) :=
  ⟨operandCountOf_opcode .add, rfl, isAlu_opcode .add, dispatch_opcode_descriptor .add⟩
theorem Sys2Proof.Laws.OpcodeContract.sub (a b : Sys2Proof.Byte) : Statement (.sub a b) :=
  ⟨operandCountOf_opcode .sub, rfl, isAlu_opcode .sub, dispatch_opcode_descriptor .sub⟩
theorem Sys2Proof.Laws.OpcodeContract.mul (a b : Sys2Proof.Byte) : Statement (.mul a b) :=
  ⟨operandCountOf_opcode .mul, rfl, isAlu_opcode .mul, dispatch_opcode_descriptor .mul⟩
theorem Sys2Proof.Laws.OpcodeContract.div (a b : Sys2Proof.Byte) : Statement (.div a b) :=
  ⟨operandCountOf_opcode .div, rfl, isAlu_opcode .div, dispatch_opcode_descriptor .div⟩
theorem Sys2Proof.Laws.OpcodeContract.mod (a b : Sys2Proof.Byte) : Statement (.mod a b) :=
  ⟨operandCountOf_opcode .mod, rfl, isAlu_opcode .mod, dispatch_opcode_descriptor .mod⟩
theorem Sys2Proof.Laws.OpcodeContract.and (a b : Sys2Proof.Byte) : Statement (.and a b) :=
  ⟨operandCountOf_opcode .and, rfl, isAlu_opcode .and, dispatch_opcode_descriptor .and⟩
theorem Sys2Proof.Laws.OpcodeContract.or (a b : Sys2Proof.Byte) : Statement (.or a b) :=
  ⟨operandCountOf_opcode .or, rfl, isAlu_opcode .or, dispatch_opcode_descriptor .or⟩
theorem Sys2Proof.Laws.OpcodeContract.xor (a b : Sys2Proof.Byte) : Statement (.xor a b) :=
  ⟨operandCountOf_opcode .xor, rfl, isAlu_opcode .xor, dispatch_opcode_descriptor .xor⟩
theorem Sys2Proof.Laws.OpcodeContract.shl (a b : Sys2Proof.Byte) : Statement (.shl a b) :=
  ⟨operandCountOf_opcode .shl, rfl, isAlu_opcode .shl, dispatch_opcode_descriptor .shl⟩
theorem Sys2Proof.Laws.OpcodeContract.shr (a b : Sys2Proof.Byte) : Statement (.shr a b) :=
  ⟨operandCountOf_opcode .shr, rfl, isAlu_opcode .shr, dispatch_opcode_descriptor .shr⟩
theorem Sys2Proof.Laws.OpcodeContract.inc (a : Sys2Proof.Byte) : Statement (.inc a) :=
  ⟨operandCountOf_opcode .inc, rfl, isAlu_opcode .inc, dispatch_opcode_descriptor .inc⟩
theorem Sys2Proof.Laws.OpcodeContract.dec (a : Sys2Proof.Byte) : Statement (.dec a) :=
  ⟨operandCountOf_opcode .dec, rfl, isAlu_opcode .dec, dispatch_opcode_descriptor .dec⟩
theorem Sys2Proof.Laws.OpcodeContract.not (a : Sys2Proof.Byte) : Statement (.not a) :=
  ⟨operandCountOf_opcode .not, rfl, isAlu_opcode .not, dispatch_opcode_descriptor .not⟩
end

