-- ==== Sys2Proof/Laws/Step.lean ====
section
/-! SUPPORT. Everything an instruction can do, everything the fetch can give, and everything a step can do: the later
proofs cite these and do not unfold exec or step. -/

namespace Sys2Proof.Machine

/-- What executing `i` in `s` can leave. -/
inductive ExecOutcome (i : Instr) (s : State) : State → Prop
  | halted (hi : i = .hlt) : ExecOutcome i s { s with runState := .halted, cause := none, info := 0 }
  | badRegister (b : Byte) (hb : firstBadRegister i = some b) : ExecOutcome i s (s.raise .invalidRegister (zext9 b))
  | divisionByZero (hi : (∃ a b, i = .div a b) ∨ ∃ a b, i = .mod a b) : ExecOutcome i s (s.haltDz (zext9 s.ir))
  | stackUnderflow (hi : ((∃ a, i = .push a) ∧ s.sp = 0) ∨ ((∃ a, i = .pop a) ∧ s.sp = Config.spReset)) :
      ExecOutcome i s (s.raise .stackUnderflow (zext9 s.sp))
  | wrote (a : Byte) (ha : a.toNat < 8) (hi : i.regOperands.head? = some a) (v : Int) :
      ExecOutcome i s (s.setReg ⟨a.toNat, ha⟩ v)
  | printed (a : Byte) (ha : a.toNat < 8) (hi : i = .prn a) :
      ExecOutcome i s (s.emit (.print (s.reg ⟨a.toNat, ha⟩)))
  | pushed (a : Byte) (ha : a.toNat < 8) (hi : i = .push a) (hsp : s.sp ≠ 0) :
      ExecOutcome i s { s.spDown with mem := s.mem.write s.pushAddress (s.spDown.reg ⟨a.toNat, ha⟩) }
  | popped (a : Byte) (ha : a.toNat < 8) (hi : i = .pop a) (hsp : s.sp ≠ Config.spReset) :
      ExecOutcome i s (s.setReg ⟨a.toNat, ha⟩ ((s.mem.read s.sp.toNat).toNat : Int)).spUp

theorem firstBad_unary {i : Instr} {a : Byte} (h : i.regOperands = [a]) (ha : 8 ≤ a.toNat) :
    firstBadRegister i = some a := by
  have : regByteOk a = false := by simp [regByteOk]; omega
  simp [firstBadRegister, h, this]

theorem firstBad_binary_left {i : Instr} {a b : Byte} (h : i.regOperands = [a, b]) (ha : 8 ≤ a.toNat) :
    firstBadRegister i = some a := by
  have : regByteOk a = false := by simp [regByteOk]; omega
  simp [firstBadRegister, h, this]

theorem firstBad_binary_right {i : Instr} {a b : Byte} (h : i.regOperands = [a, b]) (ha : a.toNat < 8)
    (hb : 8 ≤ b.toNat) : firstBadRegister i = some b := by
  have h1 : regByteOk a = true := by simp [regByteOk]; omega
  have h2 : regByteOk b = false := by simp [regByteOk]; omega
  simp [firstBadRegister, h, h1, h2]

theorem aluApply_execOutcome {i : Instr} {m : Mnemonic} (s : State) {a : Byte} (ha : a.toNat < 8) (vb : Byte)
    (hh : i.regOperands.head? = some a) (hm : aluFn m ≠ none)
    (hd : dividesBy m = true → (∃ a b, i = .div a b) ∨ ∃ a b, i = .mod a b) :
    ExecOutcome i s (s.aluApply m ⟨a.toNat, ha⟩ vb) := by
  rcases aluApply_cases s m ⟨a.toNat, ha⟩ vb with ⟨h, _⟩ | ⟨h, _, e⟩ | ⟨f, _, e⟩
  · exact absurd h hm
  · rw [e]; exact .divisionByZero (hd h)
  · rw [e]; exact .wrote a ha hh _

theorem aluBinary_execOutcome {i : Instr} {m : Mnemonic} (s : State) {a b : Byte} (h : i.regOperands = [a, b])
    (hm : aluFn m ≠ none) (hd : dividesBy m = true → (∃ a b, i = .div a b) ∨ ∃ a b, i = .mod a b) :
    ExecOutcome i s (s.aluBinary m a b) := by
  by_cases ha : a.toNat < 8
  · by_cases hb : b.toNat < 8
    · rw [aluBinary_of_lt s m ha hb]
      exact aluApply_execOutcome s ha _ (by simp [h]) hm hd
    · rw [State.aluBinary, withReg_of_lt s _ ha, withReg_of_ge s _ (by omega)]
      exact .badRegister b (firstBad_binary_right h ha (by omega))
  · rw [State.aluBinary, withReg_of_ge s _ (by omega)]
    exact .badRegister a (firstBad_binary_left h (by omega))

theorem aluUnary_execOutcome {i : Instr} {m : Mnemonic} (s : State) {a : Byte} (h : i.regOperands = [a])
    (hm : aluFn m ≠ none) (hd : dividesBy m = true → (∃ a b, i = .div a b) ∨ ∃ a b, i = .mod a b) :
    ExecOutcome i s (s.aluUnary m a) := by
  by_cases ha : a.toNat < 8
  · rw [aluUnary_of_lt s m ha]
    exact aluApply_execOutcome s ha _ (by simp [h]) hm hd
  · rw [State.aluUnary, withReg_of_ge s _ (by omega)]
    exact .badRegister a (firstBad_unary h (by omega))

/-- LDI's state, once its register operand is checked. -/
theorem execLdi_of_lt (s : State) {a : Byte} (imm : Byte) (ha : a.toNat < 8) :
    execLdi a imm s = .next (s.setReg ⟨a.toNat, ha⟩ (immOperand imm)) := by
  rw [execLdi, withReg_of_lt s _ ha]

/-- PRN's state, once its register operand is checked. -/
theorem execPrn_of_lt (s : State) {a : Byte} (ha : a.toNat < 8) :
    execPrn a s = .next (s.emit (.print (s.reg ⟨a.toNat, ha⟩))) := by
  rw [execPrn, withReg_of_lt s _ ha]

theorem execPush_of_zero (s : State) {a : Byte} (ha : a.toNat < 8) (h : s.sp = 0) :
    execPush a s = .next (s.raise .stackUnderflow (zext9 s.sp)) := by
  rw [execPush, withReg_of_lt s _ ha, if_pos h]

theorem execPush_of_ne_zero (s : State) {a : Byte} (ha : a.toNat < 8) (h : s.sp ≠ 0) :
    execPush a s =
      .next { s.spDown with mem := s.mem.write s.pushAddress (s.spDown.reg ⟨a.toNat, ha⟩) } := by
  have hp : s.pushAddress < Config.memSize := byte_lt_memSize s.spDown.sp
  rw [execPush, withReg_of_lt s _ ha, if_neg h, memWrite_of_lt s.spDown _ hp]
  rfl

theorem execPop_of_empty (s : State) {a : Byte} (ha : a.toNat < 8) (h : s.sp = Config.spReset) :
    execPop a s = .next (s.raise .stackUnderflow (zext9 s.sp)) := by
  rw [execPop, withReg_of_lt s _ ha, if_pos (by simp [popEmpty, h])]

theorem execPop_of_ne_empty (s : State) {a : Byte} (ha : a.toNat < 8) (h : s.sp ≠ Config.spReset) :
    execPop a s =
      .next (s.setReg ⟨a.toNat, ha⟩ ((s.mem.read s.sp.toNat).toNat : Int)).spUp := by
  rw [execPop, withReg_of_lt s _ ha, if_neg (by simpa [popEmpty] using h), memRead_of_lt s (byte_lt_memSize _)]

/-- Everything an instruction can do. No instruction stops the model. -/
theorem exec_cases (i : Instr) (s : State) : ∃ t, exec i s = .next t ∧ ExecOutcome i s t := by
  cases i with
  | hlt => exact ⟨_, rfl, .halted rfl⟩
  | ldi a imm =>
    by_cases ha : a.toNat < 8
    · exact ⟨_, execLdi_of_lt s imm ha, .wrote a ha rfl _⟩
    · exact ⟨_, rfl, by rw [withReg_of_ge s _ (by omega)]; exact .badRegister a (firstBad_unary rfl (by omega))⟩
  | prn a =>
    by_cases ha : a.toNat < 8
    · exact ⟨_, execPrn_of_lt s ha, .printed a ha rfl⟩
    · exact ⟨_, rfl, by rw [withReg_of_ge s _ (by omega)]; exact .badRegister a (firstBad_unary rfl (by omega))⟩
  | push a =>
    by_cases ha : a.toNat < 8
    · by_cases hs : s.sp = 0
      · exact ⟨_, execPush_of_zero s ha hs, .stackUnderflow (.inl ⟨⟨a, rfl⟩, hs⟩)⟩
      · exact ⟨_, execPush_of_ne_zero s ha hs, .pushed a ha rfl hs⟩
    · exact ⟨_, rfl, by rw [withReg_of_ge s _ (by omega)]; exact .badRegister a (firstBad_unary rfl (by omega))⟩
  | pop a =>
    by_cases ha : a.toNat < 8
    · by_cases hs : s.sp = Config.spReset
      · exact ⟨_, execPop_of_empty s ha hs, .stackUnderflow (.inr ⟨⟨a, rfl⟩, hs⟩)⟩
      · exact ⟨_, execPop_of_ne_empty s ha hs, .popped a ha rfl hs⟩
    · exact ⟨_, rfl, by rw [withReg_of_ge s _ (by omega)]; exact .badRegister a (firstBad_unary rfl (by omega))⟩
  | add a b => exact ⟨_, rfl, aluBinary_execOutcome s rfl (by simp [aluFn]) (by simp [dividesBy])⟩
  | sub a b => exact ⟨_, rfl, aluBinary_execOutcome s rfl (by simp [aluFn]) (by simp [dividesBy])⟩
  | mul a b => exact ⟨_, rfl, aluBinary_execOutcome s rfl (by simp [aluFn]) (by simp [dividesBy])⟩
  | div a b => exact ⟨_, rfl, aluBinary_execOutcome s rfl (by simp [aluFn]) (fun _ => .inl ⟨a, b, rfl⟩)⟩
  | mod a b => exact ⟨_, rfl, aluBinary_execOutcome s rfl (by simp [aluFn]) (fun _ => .inr ⟨a, b, rfl⟩)⟩
  | and a b => exact ⟨_, rfl, aluBinary_execOutcome s rfl (by simp [aluFn]) (by simp [dividesBy])⟩
  | or a b => exact ⟨_, rfl, aluBinary_execOutcome s rfl (by simp [aluFn]) (by simp [dividesBy])⟩
  | xor a b => exact ⟨_, rfl, aluBinary_execOutcome s rfl (by simp [aluFn]) (by simp [dividesBy])⟩
  | shl a b => exact ⟨_, rfl, aluBinary_execOutcome s rfl (by simp [aluFn]) (by simp [dividesBy])⟩
  | shr a b => exact ⟨_, rfl, aluBinary_execOutcome s rfl (by simp [aluFn]) (by simp [dividesBy])⟩
  | inc a => exact ⟨_, rfl, aluUnary_execOutcome s rfl (by simp [aluFn]) (by simp [dividesBy])⟩
  | dec a => exact ⟨_, rfl, aluUnary_execOutcome s rfl (by simp [aluFn]) (by simp [dividesBy])⟩
  | not a => exact ⟨_, rfl, aluUnary_execOutcome s rfl (by simp [aluFn]) (by simp [dividesBy])⟩

/-- The same, from an answer of exec. -/
theorem exec_outcome {i : Instr} {s t : State} (h : exec i s = .next t) : ExecOutcome i s t := by
  obtain ⟨u, e, o⟩ := exec_cases i s
  rw [e] at h
  injection h with h
  exact h ▸ o

/-! ### The fetch -/

/-- The operand bytes the fetch reads: as many as the opcode byte's count field says, after the pc. -/
def operandBytes (s : State) : List Byte :=
  (List.range (operandCountOf s.ir)).map (fun k => s.mem.read (s.pc.toNat + 1 + k))

theorem fetchOperands_unknown {s : State} (h : dispatch s.ir = none) : s.fetchOperands = .unknownOpcode s.ir := by
  simp [State.fetchOperands, h]

theorem fetchOperands_outOfBounds {s : State} (h : dispatch s.ir ≠ none) (hn : 255 < s.pc.toNat + operandCountOf s.ir) :
    s.fetchOperands = .outOfBounds 256 := by
  have hp := byte_lt_memSize s.pc
  unfold Config.memSize at hp
  obtain ⟨d, hd⟩ := Option.ne_none_iff_exists'.1 h
  rw [State.fetchOperands, hd]
  simp only
  rw [readBytes_of_gt s _ _ (by unfold Config.memSize; omega) (by unfold Config.memSize; omega)]
  rfl

theorem fetchOperands_instr {s : State} (h : dispatch s.ir ≠ none) (hn : s.pc.toNat + operandCountOf s.ir ≤ 255) :
    ∃ i, s.fetchOperands = .instr i ∧ i.mnemonic.opcode = s.ir ∧ i.operands = operandBytes s := by
  obtain ⟨d, hd⟩ := Option.ne_none_iff_exists'.1 h
  have e := dispatch_eq_some hd
  have hlen : (operandBytes s).length = d.mnemonic.format.length - 1 := by
    rw [← operandCountOf_opcode, ← e]; simp [operandBytes]
  obtain ⟨i, hi⟩ := Option.isSome_iff_exists.1 (buildInstr_isSome hlen)
  obtain ⟨hm, ho⟩ := buildInstr_eq_some hi
  refine ⟨i, ?_, by rw [hm, ← e], ho⟩
  have hl : (operandBytes s).length = operandCountOf s.ir := by simp [operandBytes]
  have hdec : decode (s.ir :: operandBytes s) = .ok i ((operandBytes s).drop (operandCountOf s.ir)) := by
    simp only [decode, hd]
    rw [if_pos (by omega), List.take_of_length_le (by omega), hi]
  rw [State.fetchOperands, hd]
  simp only
  rw [readBytes_of_le s _ _ (by unfold Config.memSize; omega)]
  show (match decode (s.ir :: operandBytes s) with
    | .ok i _ => Fetched.instr i | .unknownOpcode b => .unknownOpcode b | .truncated k => .outOfBounds (s.pc.toNat + k)) = _
  rw [hdec]

/-- Everything the fetch can give. -/
theorem fetchOperands_cases (s : State) :
    (dispatch s.ir = none ∧ s.fetchOperands = .unknownOpcode s.ir) ∨
      (dispatch s.ir ≠ none ∧ 255 < s.pc.toNat + operandCountOf s.ir ∧ s.fetchOperands = .outOfBounds 256) ∨
        (dispatch s.ir ≠ none ∧ s.pc.toNat + operandCountOf s.ir ≤ 255 ∧
          ∃ i, s.fetchOperands = .instr i ∧ i.mnemonic.opcode = s.ir ∧ i.operands = operandBytes s) := by
  by_cases h : dispatch s.ir = none
  · exact .inl ⟨h, fetchOperands_unknown h⟩
  · by_cases hn : s.pc.toNat + operandCountOf s.ir ≤ 255
    · exact .inr (.inr ⟨h, hn, fetchOperands_instr h hn⟩)
    · exact .inr (.inl ⟨h, by omega, fetchOperands_outOfBounds h (by omega)⟩)

/-! ### The step -/

/-- What a step of a Running engine, with HostStop's value `stop`, can leave. -/
inductive StepOutcome (stop : Bool) (s : State) : State → Prop
  | stopped (h : stop = true) : StepOutcome stop s s.stopByHost
  | unknownOpcode (h : stop = false) (hd : dispatch s.fetchOpcode.ir = none) :
      StepOutcome stop s (s.fetchOpcode.raise .unknownOpcode (zext9 s.fetchOpcode.ir))
  | outOfBounds (h : stop = false) (hd : dispatch s.fetchOpcode.ir ≠ none)
      (hn : 255 < s.pc.toNat + operandCountOf s.fetchOpcode.ir) :
      StepOutcome stop s (s.fetchOpcode.raiseOutOfBounds 256)
  | executed (h : stop = false) (i : Instr) (u : State) (hn : s.pc.toNat + operandCountOf s.fetchOpcode.ir ≤ 255)
      (hf : s.fetchOpcode.fetchOperands = .instr i) (hc : i.mnemonic.opcode = s.fetchOpcode.ir)
      (ho : i.operands = operandBytes s.fetchOpcode) (he : exec i s.fetchOpcode = .next u)
      (hu : ExecOutcome i s.fetchOpcode u) : StepOutcome stop s u.advance

/-- Everything a step of a Running engine can do. -/
theorem stepSampled_cases (stop : Bool) (s : State) :
    ∃ t, stepSampled stop s = .next t ∧ StepOutcome stop s t := by
  cases stop with
  | true => exact ⟨_, rfl, .stopped rfl⟩
  | false =>
    rcases fetchOperands_cases s.fetchOpcode with ⟨hd, hf⟩ | ⟨hd, hn, hf⟩ | ⟨hd, hn, i, hf, hc, ho⟩
    · exact ⟨_, by simp only [stepSampled, hf]; rfl, .unknownOpcode rfl hd⟩
    · exact ⟨_, by simp only [stepSampled, hf]; rfl, .outOfBounds rfl hd hn⟩
    · obtain ⟨u, he, hu⟩ := exec_cases i s.fetchOpcode
      exact ⟨_, by simp only [stepSampled, hf, he]; rfl, .executed rfl i u hn hf hc ho he hu⟩

theorem stepSampled_outcome {stop : Bool} {s t : State} (h : stepSampled stop s = .next t) : StepOutcome stop s t := by
  obtain ⟨u, e, o⟩ := stepSampled_cases stop s
  rw [e] at h
  injection h with h
  exact h ▸ o

theorem step_of_running {s : State} (h : s.runState = .running) :
    step s = stepSampled s.hostStopNow s.hostStopAsked := by simp [step, h]

theorem step_of_not_running {s : State} (h : s.runState ≠ .running) : step s = .fault (.notRunning s.runState) := by
  simp [step, h]

/-- Everything a step can do, from its answer. -/
theorem step_outcome {s t : State} (h : step s = .next t) :
    s.runState = .running ∧ StepOutcome s.hostStopNow s.hostStopAsked t := by
  by_cases hr : s.runState = .running
  · rw [step_of_running hr] at h
    exact ⟨hr, stepSampled_outcome h⟩
  · rw [step_of_not_running hr] at h
    cases h

end Sys2Proof.Machine
end

