-- ==== Sys2Proof/Machine/Flags.lean ====
section
/-! DEFINITION. The engine has no flags and no condition codes: no instruction sets or reads one (10_state.md R31;
41_alu.md R114). What stands here is the status it has instead, as the host reads it at the ports `run_state`,
`cause` and `info` (10_state.md R29, R30; 40_execution_loop.md R97, R99). -/

namespace Sys2Proof.Machine

/-- The code of a run state, 2 bits (10_state.md R29). -/
def RunState.code : RunState → BitVec 2
  | .running => 0
  | .halted => 1
  | .stopped => 2
  | .faulted => 3

/-- The code of a fault kind, 3 bits (60_exceptions.md R150). -/
def FaultKind.code : FaultKind → BitVec 3
  | .unknownOpcode => 1
  | .addressOutOfBounds => 2
  | .invalidRegister => 3
  | .divisionByZero => 4
  | .stackUnderflow => 5
  | .unsupportedOperation => 6

/-- The port `cause`: 0 means no fault (10_state.md R30; 60_exceptions.md R150). -/
def State.causeCode (s : State) : BitVec 3 :=
  match s.cause with
  | none => 0
  | some k => k.code

end Sys2Proof.Machine
end

