-- ==== Sys2Proof/Tests/Slice0.lean ====
section
/-! SUPPORT. Tests. Every expected result is one of spec/95_test_vectors.md (its id is in the comment) or of the rule
named there; a decoding test writes the word out from 30_encoding.md R66; a witness meets the hypotheses of the
statement it is named after. -/

namespace Sys2Proof.Tests

open Sys2Proof Sys2Proof.Machine

/-- Reset with these values in R0 and R1. -/
def withR01 (a b : Byte) : State := { State.reset with regs := #v[a, b, 0, 0, 0, 0, 0, 0xF4] }

/-- Reset with this stack pointer. -/
def withSp (sp : Byte) : State := { State.reset with regs := #v[1, 0, 9, 0x42, 0, 0, 0, sp] }

/-- A state with these bytes from the pc up. -/
def atPc (s : State) (pc : Byte) (bytes : List Byte) : State :=
  { s with pc := pc, mem := s.mem.load pc.toNat bytes }

/-- What is asked of a next state, `none` where there is none. -/
def ask (f : State → α) : Host.Outcome State Fault Refusal → Option α
  | .next t => some (f t)
  | .fault _ => none
  | .refused _ => none

/-- The run state, cause code and recorded value, as the host reads them. -/
def status (s : State) : BitVec 2 × BitVec 3 × BitVec 9 := (s.runState.code, s.causeCode, s.info)

/-! ### Well-formedness: each register operand is checked -/

theorem test_wellFormed_accepts_r7 : (Instr.add 7 7).wellFormed = true := by decide
theorem test_wellFormed_refuses_operand_a : (Instr.add 8 0).wellFormed = false := by decide
theorem test_wellFormed_refuses_operand_b : (Instr.add 0 8).wellFormed = false := by decide
theorem test_wellFormed_refuses_unary : (Instr.push 255).wellFormed = false := by decide
theorem test_wellFormed_takes_any_immediate : (Instr.ldi 0 255).wellFormed = true := by decide
theorem test_wellFormed_refuses_ldi_register : (Instr.ldi 8 0).wellFormed = false := by decide

/-! ### Decoding: words written out from R66 (bits 7:6, 5, 4:0) and R67 -/

theorem test_decode_hlt : decode [0b00000001, 0xFF] = .ok .hlt [0xFF] := by decide
theorem test_decode_ldi : decode [0b10000010, 0b00000011, 0b00000110, 0xFF] = .ok (.ldi 3 6) [0xFF] := by decide
theorem test_decode_prn : decode [0b01000111, 0b00000011, 0xFF] = .ok (.prn 3) [0xFF] := by decide
theorem test_decode_push : decode [0b01000101, 0b00000011, 0xFF] = .ok (.push 3) [0xFF] := by decide
theorem test_decode_pop : decode [0b01000110, 0b00000011, 0xFF] = .ok (.pop 3) [0xFF] := by decide
theorem test_decode_add : decode [0b10100000, 0b00000011, 0b00000110, 0xFF] = .ok (.add 3 6) [0xFF] := by decide
theorem test_decode_sub : decode [0b10100001, 0b00000011, 0b00000110, 0xFF] = .ok (.sub 3 6) [0xFF] := by decide
theorem test_decode_mul : decode [0b10100010, 0b00000011, 0b00000110, 0xFF] = .ok (.mul 3 6) [0xFF] := by decide
theorem test_decode_div : decode [0b10100011, 0b00000011, 0b00000110, 0xFF] = .ok (.div 3 6) [0xFF] := by decide
theorem test_decode_mod : decode [0b10100100, 0b00000011, 0b00000110, 0xFF] = .ok (.mod 3 6) [0xFF] := by decide
theorem test_decode_and : decode [0b10101000, 0b00000011, 0b00000110, 0xFF] = .ok (.and 3 6) [0xFF] := by decide
theorem test_decode_or : decode [0b10101010, 0b00000011, 0b00000110, 0xFF] = .ok (.or 3 6) [0xFF] := by decide
theorem test_decode_xor : decode [0b10101011, 0b00000011, 0b00000110, 0xFF] = .ok (.xor 3 6) [0xFF] := by decide
theorem test_decode_shl : decode [0b10101100, 0b00000011, 0b00000110, 0xFF] = .ok (.shl 3 6) [0xFF] := by decide
theorem test_decode_shr : decode [0b10101101, 0b00000011, 0b00000110, 0xFF] = .ok (.shr 3 6) [0xFF] := by decide
theorem test_decode_inc : decode [0b01100101, 0b00000011, 0xFF] = .ok (.inc 3) [0xFF] := by decide
theorem test_decode_dec : decode [0b01100110, 0b00000011, 0xFF] = .ok (.dec 3) [0xFF] := by decide
theorem test_decode_not : decode [0b01101001, 0b00000011, 0xFF] = .ok (.not 3) [0xFF] := by decide

/-- D-9, D-13, D-16, D-18: no NOP, no gap fill, no count 3, no jump. -/
theorem test_decode_refuses_unknown :
    [0x00, 0xA6, 0xC0, 0x54].map (fun b : Byte => decode [b, 0, 0]) =
      [.unknownOpcode 0x00, .unknownOpcode 0xA6, .unknownOpcode 0xC0, .unknownOpcode 0x54] := by decide
theorem test_decode_truncated : decode [0xA0, 1] = .truncated 2 := by decide
theorem test_decodeTableWord_three_bytes : decodeTableWord 24 0x0A0582 = some (.ldi 5 10) := by decide
theorem test_decodeTableWord_bits_above_are_zero : decodeTableWord 8 0x0A0582 = some (.ldi 0 0) := by decide
/-- R7: a map with a wrong count is refused. -/
theorem test_opcodeMap_with_wrong_count_refused :
    opcodeMapOk ((0x01, ⟨.hlt, 1, false⟩) :: opcodeMap.tail) = false := by decide
/-- R7: HLT at a byte of count 1 is not R66's HLT, and ADD at INC's byte is not R66's ADD, though bits and row agree. -/
theorem test_opcodeMap_with_other_instructions_refused :
    opcodeMapOk ((0x41, ⟨.hlt, 1, false⟩) :: opcodeMap.tail) = false ∧
      opcodeMapOk (opcodeMap.map fun row =>
        if row.2.mnemonic = .add then (0x65, ⟨.add, 1, true⟩)
        else if row.2.mnemonic = .inc then (0xA0, ⟨.inc, 2, true⟩) else row) = false := by decide
/-- R6: other byte values that keep the contract are a legal map (HLT at 0x02). -/
theorem test_opcodeMap_with_other_byte_accepted :
    opcodeMapOk ((0x02, ⟨.hlt, 0, false⟩) :: opcodeMap.tail) = true := by decide
theorem test_opcodeMap_accepted : opcodeMapOk opcodeMap = true := by decide

/-! ### Status codes (10_state.md R29; 60_exceptions.md R150) -/

theorem test_runState_codes :
    [RunState.running, .halted, .stopped, .faulted].map RunState.code = [0, 1, 2, 3] := by decide
theorem test_fault_codes :
    [FaultKind.unknownOpcode, .addressOutOfBounds, .invalidRegister, .divisionByZero, .stackUnderflow,
      .unsupportedOperation].map FaultKind.code = [1, 2, 3, 4, 5, 6] := by decide

/-! ### The ALU -/

/-- The value of R0 after a binary instruction on R0 and R1. -/
def binary (i : Byte → Byte → Instr) (va vb : Byte) : Option Byte := ask (·.reg 0) (exec (i 0 1) (withR01 va vb))

/-- The value of R0 after an instruction with R0 for every operand. -/
def same (i : Byte → Byte → Instr) (va : Byte) : Option Byte := ask (·.reg 0) (exec (i 0 0) (withR01 va 0))

/-- The value of R0 after a unary instruction on R0. -/
def unary (i : Byte → Instr) (va : Byte) : Option Byte := ask (·.reg 0) (exec (i 0) (withR01 va 0))

/-- A-ADD-1. -/
theorem test_add_wraps : binary .add 200 100 = some 44 := by decide
/-- A-ADD-5. -/
theorem test_add_same_register : same .add 200 = some 144 := by decide
/-- A-SUB-3. -/
theorem test_sub_borrows : binary .sub 3 5 = some 254 := by decide
/-- A-SUB-5. -/
theorem test_sub_same_register : same .sub 100 = some 0 := by decide
/-- A-MUL-3. -/
theorem test_mul_low_byte : binary .mul 255 255 = some 1 := by decide
/-- A-MUL-7. -/
theorem test_mul_same_register : same .mul 15 = some 225 := by decide
/-- A-DIV-1. -/
theorem test_div_floors : binary .div 200 7 = some 28 := by decide
/-- A-DIV-3. -/
theorem test_div_smaller : binary .div 5 10 = some 0 := by decide
/-- A-MOD-1. -/
theorem test_mod_remainder : binary .mod 200 7 = some 4 := by decide
/-- A-MOD-3. -/
theorem test_mod_smaller : binary .mod 5 10 = some 5 := by decide
/-- A-AND-1. -/
theorem test_and_bits : binary .and 0xF0 0x3C = some 0x30 := by decide
/-- A-OR-1. -/
theorem test_or_bits : binary .or 0xF0 0x3C = some 0xFC := by decide
/-- A-XOR-1. -/
theorem test_xor_bits : binary .xor 0xF0 0x3C = some 0xCC := by decide
/-- A-XOR-3. -/
theorem test_xor_same_register : same .xor 0x5A = some 0 := by decide
/-- A-SHL-1. -/
theorem test_shl_drops_high_bits : binary .shl 0x81 1 = some 0x02 := by decide
/-- A-SHL-6. -/
theorem test_shl_whole_amount : binary .shl 0xFF 255 = some 0 := by decide
/-- A-SHR-5. -/
theorem test_shr_fills_with_zero : binary .shr 0xFF 1 = some 0x7F := by decide
/-- A-SHR-3. -/
theorem test_shr_by_eight : binary .shr 0x80 8 = some 0 := by decide
/-- A-INC-2. -/
theorem test_inc_wraps : unary .inc 255 = some 0 := by decide
/-- A-DEC-1. -/
theorem test_dec_wraps : unary .dec 0 = some 255 := by decide
/-- A-NOT-4. -/
theorem test_not_complements : unary .not 0xA5 = some 0x5A := by decide
/-- A-INC-3: INC R7 moves SP, with no check. -/
theorem test_inc_r7 : ask State.sp (exec (.inc 7) State.reset) = some 0xF5 := by decide
/-- A-DEC-3: DEC R7 at 0 wraps, with no StackUnderflow. -/
theorem test_dec_r7 : ask (fun t => (t.sp, t.runState)) (exec (.dec 7) (withSp 0)) = some (255, .running) := by decide
/-- A-DIV-7. -/
theorem test_div_by_zero :
    ask (fun t => (status t, t.reg 0, t.pc, t.events)) (step (atPc (withR01 7 0) 0 [0xA3, 0, 1])) =
      some ((1, 4, 0xA3), 7, 0, [.diag .divisionByZero 0xA3]) := by decide
/-- A-MOD-6. -/
theorem test_mod_by_zero :
    ask (fun t => (status t, t.reg 0, t.pc)) (step (atPc (withR01 7 0) 0 [0xA4, 0, 1])) =
      some ((1, 4, 0xA4), 7, 0) := by decide
/-- A-F-1: operand A is reported. -/
theorem test_bad_operand_a :
    ask (fun t => (status t, t.pc, t.events)) (step (atPc State.reset 0 [0xA0, 9, 10])) =
      some ((3, 3, 9), 0, [.diag .invalidRegister 9]) := by decide
/-- A-F-3: InvalidRegister comes before DivisionByZero. -/
theorem test_bad_operand_b_before_division :
    ask status (step (atPc State.reset 0 [0xA3, 0, 9])) = some (3, 3, 9) := by decide
/-- A-F-4: the byte after INC's operand is not an operand. -/
theorem test_inc_reads_one_operand :
    ask (fun t => (t.reg 0, t.pc, t.runState)) (step (atPc State.reset 0 [0x65, 0, 0xFF])) =
      some (1, 2, .running) := by decide

/-! ### HLT, LDI, PRN -/

/-- C-7. -/
theorem test_hlt :
    ask (fun t => (status t, t.pc, t.regs == State.reset.regs, t.events)) (step (atPc State.reset 11 [0x01])) =
      some ((1, 0, 0), 11, true, []) := by decide
/-- F-4: HLT at 255 reads no operand. -/
theorem test_hlt_at_255 : ask (fun t => (status t, t.pc)) (step (atPc State.reset 255 [0x01])) =
    some ((1, 0, 0), 255) := by decide
/-- C-1. -/
theorem test_ldi : ask (fun t => (t.reg 0, t.pc)) (step (atPc State.reset 0 [0x82, 0, 8])) = some (8, 3) := by decide
/-- C-8. -/
theorem test_ldi_bad_register :
    ask (fun t => (status t, t.pc)) (step (atPc State.reset 0 [0x82, 8, 5])) = some ((3, 3, 8), 0) := by decide
/-- C-4. -/
theorem test_prn : ask (fun t => (t.events, t.pc)) (step (atPc (withR01 72 0) 0 [0x47, 0])) =
    some ([.print 72], 2) := by decide
/-- C-6. -/
theorem test_prn_bad_register :
    ask (fun t => (status t, t.events)) (step (atPc State.reset 0 [0x47, 8])) =
      some ((3, 3, 8), [.diag .invalidRegister 8]) := by decide

/-! ### PUSH and POP -/

/-- S-15: the value, not the index. -/
theorem test_push_value :
    ask (fun t => (t.sp, t.mem.read 0xF3, t.mem)) (exec (.push 3) (withSp 0xF4)) =
      some (0xF3, 0x42, [(0xF3, 0x42)]) := by decide
/-- S-6: PUSH R7 stores the decremented SP. -/
theorem test_push_r7 : ask (fun t => (t.sp, t.mem.read 0xF3)) (exec (.push 7) State.reset) =
    some (0xF3, 0xF3) := by decide
/-- S-4. -/
theorem test_push_underflow :
    ask (fun t => (status t, t.sp, t.mem)) (exec (.push 0) (withSp 0)) = some ((3, 5, 0), 0, []) := by decide
/-- S-8: SP wraps. -/
theorem test_pop_wraps_sp :
    ask (fun t => (t.reg 0, t.sp)) (exec (.pop 0) { withSp 0xFF with mem := [(0xFF, 0x77)] }) =
      some (0x77, 0) := by decide
/-- S-7: POP R7. -/
theorem test_pop_r7 :
    ask State.sp (exec (.pop 7) { withSp 0xF3 with mem := [(0xF3, 0x10)] }) = some 0x11 := by decide
/-- S-3. -/
theorem test_pop_underflow :
    ask (fun t => (status t, t.sp)) (exec (.pop 0) State.reset) = some ((3, 5, 0xF4), 0xF4) := by decide
/-- Memory stays canonical: a byte of 0 is not listed. -/
theorem test_push_zero_is_not_listed :
    ask State.mem (exec (.push 1) { withSp 0xF4 with mem := [(0xF3, 5), (0xF5, 6)] }) = some [(0xF5, 6)] := by decide

/-! ### Sequencing -/

/-- F-5: operand fetch past the end. -/
theorem test_operand_fetch_past_end :
    ask (fun t => (status t, t.pc, t.events)) (step (atPc State.reset 255 [0x47])) =
      some ((3, 2, 0x100), 255, [.diag .addressOutOfBounds 0x100]) := by decide
/-- F-6: the effects of step 5 stand at the advance. -/
theorem test_advance_past_end :
    ask (fun t => (status t, t.pc, t.events)) (step (atPc (withR01 5 0) 254 [0x47, 0])) =
      some ((3, 2, 0x100), 254, [.print 5, .diag .addressOutOfBounds 0x100]) := by decide
/-- F-7. -/
theorem test_advance_past_end_keeps_register :
    ask (fun t => (status t, t.pc, t.reg 1)) (step (atPc State.reset 253 [0x82, 1, 7])) =
      some ((3, 2, 0x100), 253, 7) := by decide
/-- F-10: UnknownOpcode before operand fetch. -/
theorem test_unknown_at_255 : ask status (step (atPc State.reset 255 [0xC3])) = some (3, 1, 0xC3) := by decide
/-- F-11. -/
theorem test_host_stop :
    ask (fun t => (status t, t.pc, t.events, t.ir)) (step { State.reset with hostStop := [true] }) =
      some ((2, 0, 0), 0, [], 0) := by decide
/-- R188: a machine with no program raises UnknownOpcode(0). -/
theorem test_reset_with_nothing_loaded : ask status (step State.reset) = some (3, 1, 0) := by decide
/-- R93. -/
theorem test_halted_has_no_step :
    ask status (step { State.reset with runState := .halted }) = none := by decide
/-- The image of R95 lies at address 0, and the rest is 0. -/
theorem test_launch :
    (State.launch [0x82, 0, 8]).map (fun s => [0, 1, 2, 3].map s.mem.read) = some [0x82, 0, 8, 0] := by decide
/-- A table word runs as the first instruction after reset. -/
theorem test_withFetchWord :
    ask (fun t => (t.reg 5, t.pc)) (step (State.reset.withFetchWord 24 0x0A0582)) = some (10, 3) := by decide

/-! ### The assembler (30_encoding.md R72) -/

/-- The line "LDI SP, 0x10 ; x" (C-2's first instruction). -/
theorem test_assemble_comma_and_comment :
    assembleLine ['L', 'D', 'I', ' ', 'S', 'P', ',', ' ', '0', 'x', '1', '0', ' ', ';', ' ', 'x'] =
      some [0x82, 7, 0x10] := by decide
/-- The source's form "MUL(R0,R1)" (P1). -/
theorem test_assemble_call_form :
    assembleLine ['M', 'U', 'L', '(', 'R', '0', ',', 'R', '1', ')'] = some [0xA2, 0, 1] := by decide
theorem test_assemble_refuses_r8 : assembleLine ['P', 'R', 'N', ' ', 'R', '8'] = none := by decide
theorem test_assemble_refuses_256 : assembleLine ['L', 'D', 'I', ' ', 'R', '0', ',', '2', '5', '6'] = none := by decide
theorem test_assemble_program : assemble [['P', 'R', 'N', ' ', 'R', '2'], [';'], ['H', 'L', 'T']] =
    some [0x47, 2, 0x01] := by decide

/-! ### Witnesses: states and operands that meet the hypotheses of the statements -/

/-- Both clauses of `LaunchWritesTheImageAndRefusesLongerOnes`, at the longest image and one byte more. -/
theorem witness_launch : (List.replicate 256 (1 : Byte)).length ≤ 256 ∧ 256 < (List.replicate 257 (1 : Byte)).length :=
  ⟨(List.length_replicate (a := (1 : Byte)) (n := 256)).le, (List.length_replicate (a := (1 : Byte)) (n := 257)).symm ▸ (by decide)⟩

theorem witness_launch_cells : 0 < [0x01, (0x02 : Byte)].length ∧ [0x01, (0x02 : Byte)].length ≤ 255 ∧ 255 ≤ 255 := by
  decide

theorem witness_InvariantHoldsAtLaunch : State.launch [] = some State.reset := by decide

/-- A state with a LDI at 250, R3 named, from which a step goes on. -/
def ldiAt250 : State := atPc State.reset 250 [0x82, 3, 9]

theorem witness_RunInv : RunInv ldiAt250 :=
  ⟨by decide, ⟨rfl, rfl⟩, fun _ _ h => by cases h⟩

theorem witness_EveryStepKeepsTheInvariant : RunInv ldiAt250 ∧ (ask State.pc (step ldiAt250)) = some 253 :=
  ⟨witness_RunInv, by decide⟩

/-- Bytes outside the map at both ends of the range. -/
theorem witness_unknown_opcodes :
    ∀ op ∈ ([0x00, 0xFF] : List Byte),
      op ∉ ([0x01, 0x82, 0x47, 0x45, 0x46, 0xA0, 0xA1, 0xA2, 0xA3, 0xA4, 0xA8, 0xAA, 0xAB, 0xAC, 0xAD, 0x65, 0x66,
        0x69] : List Byte) := by decide

theorem witness_AssemblingAWrittenInstructionGivesItsBytes : (Instr.ldi 7 255).wellFormed = true := by decide

theorem witness_StepExecutesTheDecodedInstruction :
    Enabled ldiAt250 ∧ decode ldiAt250.bytesAtPc = .ok (.ldi 3 9) [0, 0, 0] := ⟨⟨rfl, rfl⟩, by decide⟩

/-- The three clauses of `AdvanceFollowsTheInstruction`: HLT; PRN that ends at 254; PRN that ends at 255. -/
theorem witness_AdvanceFollowsTheInstruction :
    (Enabled (atPc State.reset 255 [0x01]) ∧ decode (atPc State.reset 255 [0x01]).bytesAtPc = .ok .hlt [] ∧
      ask State.runState (exec .hlt (atExecute (atPc State.reset 255 [0x01]))) = some .halted) ∧
    (Enabled (atPc State.reset 253 [0x47]) ∧ decode (atPc State.reset 253 [0x47]).bytesAtPc = .ok (.prn 0) [0] ∧
      ask (fun u => (u.runState, u.pc.toNat + operandCountOf u.ir + 1))
        (exec (.prn 0) (atExecute (atPc State.reset 253 [0x47]))) = some (.running, 255)) ∧
    Enabled (atPc State.reset 254 [0x47]) ∧ decode (atPc State.reset 254 [0x47]).bytesAtPc = .ok (.prn 0) [] ∧
      ask (fun u => (u.runState, u.pc.toNat + operandCountOf u.ir + 1))
        (exec (.prn 0) (atExecute (atPc State.reset 254 [0x47]))) = some (.running, 256) :=
  ⟨⟨⟨rfl, rfl⟩, by decide, by decide⟩, ⟨⟨rfl, rfl⟩, by decide, by decide⟩, ⟨rfl, rfl⟩, by decide, by decide⟩

theorem witness_EveryCompletedStepAdvancesThePc : ask State.runState (step ldiAt250) = some .running := by decide

theorem witness_EveryTerminalStepLeavesThePc :
    ask State.runState (step (atPc State.reset 11 [0x01])) = some .halted := by decide

theorem witness_UnknownOpcodeEndsTheRunWithTheByte :
    Enabled (atPc State.reset 255 [0xC3]) ∧ (atPc State.reset 255 [0xC3]).mem.read 255 = 0xC3 := ⟨⟨rfl, rfl⟩, by decide⟩

/-- Both clauses, at the boundary: LDI at 253 has its operands inside, at 254 and 255 not. -/
theorem witness_OperandFetchReadsExactlyTheOperandsOrFaults :
    dispatch 0x82 = some ⟨.ldi, 2, false⟩ ∧
      ∀ p ∈ ([253, 254, 255] : List Byte), Enabled (atPc State.reset p [0x82]) ∧
        (atPc State.reset p [0x82]).mem.read p.toNat = 0x82 := by
  refine ⟨by decide, fun p _ => ⟨⟨rfl, rfl⟩, by simp [atPc, Memory.load]⟩⟩

theorem witness_HostStopEndsTheRunBeforeTheFetch :
    State.reset.runState = .running ∧ ({ State.reset with hostStop := [true, false] } : State).hostStopNow = true :=
  ⟨rfl, rfl⟩

/-- A fault before the advance, and the fault at the advance. -/
theorem witness_FaultsArePreciseExceptAtTheAdvance :
    ask (fun t => (t.runState, t.cause)) (step (atPc State.reset 0 [0x47, 8])) = some (.faulted, some .invalidRegister) ∧
      ask (fun t => (t.runState, t.cause)) (step (atPc State.reset 253 [0x82, 1, 7])) =
        some (.faulted, some .addressOutOfBounds) := by decide

theorem witness_StepsOnlyAppendToTheReporterStream :
    ask State.events (step (atPc (withR01 5 0) 254 [0x47, 0])) =
      some [.print 5, .diag .addressOutOfBounds 256] := by decide

theorem witness_OnlyPushChangesMemory :
    ask (fun t => t.mem.read 0xF3) (step (atPc (withSp 0xF4) 0 [0x45, 3])) = some 0x42 ∧
      (atPc (withSp 0xF4) 0 [0x45, 3]).mem.read 0xF3 = 0 := by decide

/-- A PUSH at 250 with SP at 253. -/
theorem witness_PushedByteIsFetchedByTheNextStep :
    Enabled (atPc (withSp 253) 250 [0x45, 3]) ∧
      decode (atPc (withSp 253) 250 [0x45, 3]).bytesAtPc = .ok (.push 3) [0, 0, 0, 0] ∧
      (atPc (withSp 253) 250 [0x45, 3]).sp.toNat = (250 : Byte).toNat + 3 ∧
      ask State.pc (step (atPc (withSp 253) 250 [0x45, 3])) = some 252 := ⟨⟨rfl, rfl⟩, by decide, by decide, by decide⟩

theorem witness_EveryRunReturnsATerminalCondition : RunInv State.reset :=
  ⟨by decide, ⟨rfl, rfl⟩, fun _ _ h => by cases h⟩

/-- A predicate that stops the run at address 3. -/
theorem witness_HostAnswerListsCoverEveryPredicate (s : State) (l : List Bool) :
    (fun s : State => s.pc == 3) { s with hostStop := l } = (fun s : State => s.pc == 3) s := rfl

theorem witness_FetchWordIsWhatTheNextStepRuns :
    decodeTableWord 8 0x82 = some (.ldi 0 0) ∧ (atPc State.reset 253 []).pc.toNat + 3 ≤ 256 := by decide

/-- Both clauses at the boundary. -/
theorem witness_MemoryAccessesAreBytewiseAndBounded :
    State.reset.memRead 255 = some 0 ∧ State.reset.memRead 256 = none ∧ 255 < 256 := by decide

/-- IM is no operand of ADD R0, R1; and LDI R5 writes it. -/
theorem witness_RegistersButSpMatterOnlyAsOperands :
    ((5 : Fin 8) ≠ 7 ∧ ∀ b ∈ (Instr.add 0 1).regOperands, b.toNat ≠ (5 : Fin 8).val) ∧
      ask (·.reg 5) (step (atPc State.reset 0 [0x82, 5, 0xAA])) = some 0xAA ∧ State.reset.reg 5 = 0 := by decide

/-- Both clauses: a bad operand B, and no bad operand in a state that already records the fault. -/
theorem witness_BadRegisterOperandsFaultBeforeAnyWrite :
    firstBadRegister (.add 7 8) = some 8 ∧ firstBadRegister (.ldi 7 255) = none ∧
      ask State.cause (exec (.ldi 7 255) { State.reset with cause := some .invalidRegister }) =
        some (some .invalidRegister) := by decide

/-- The operands of `WritesUnary`, `WritesBinary`, `LdiLoadsTheImmediate`, `PrnSendsTheRegisterToTheReporter` and of
`ChecksUnary`, `ChecksBinary` at the boundary: 7 names a register, 8 does not. -/
theorem witness_register_operands : (7 : Byte).toNat < 8 ∧ 8 ≤ (8 : Byte).toNat ∧ 8 ≤ (255 : Byte).toNat := by decide

/-- The guard of the ALU statements but DIV and MOD is met by every state. -/
theorem witness_guard_always : Always ((withR01 1 2).reg 0) ((withR01 1 2).reg 1) := trivial

theorem witness_AddWritesTheSumMod256 :
    (0 : Byte).toNat < 8 ∧ (1 : Byte).toNat < 8 ∧
      ask State.cause (exec (.add 0 1) (withR01 200 7)) = some none ∧
      ask State.cause (exec (.add 8 8) (withR01 200 7)) = some (some .invalidRegister) ∧
      ask State.info (exec (.add 7 8) (withR01 200 7)) = some 8 := by decide

theorem witness_SubWritesTheDifferenceMod256 :
    (0 : Byte).toNat < 8 ∧ (1 : Byte).toNat < 8 ∧
      ask State.cause (exec (.sub 0 1) (withR01 200 7)) = some none ∧
      ask State.cause (exec (.sub 8 8) (withR01 200 7)) = some (some .invalidRegister) ∧
      ask State.info (exec (.sub 7 8) (withR01 200 7)) = some 8 := by decide

theorem witness_MulWritesTheLowByteOfTheProduct :
    (0 : Byte).toNat < 8 ∧ (1 : Byte).toNat < 8 ∧
      ask State.cause (exec (.mul 0 1) (withR01 200 7)) = some none ∧
      ask State.cause (exec (.mul 8 8) (withR01 200 7)) = some (some .invalidRegister) ∧
      ask State.info (exec (.mul 7 8) (withR01 200 7)) = some 8 := by decide

theorem witness_AndWritesTheBitwiseAnd :
    (0 : Byte).toNat < 8 ∧ (1 : Byte).toNat < 8 ∧
      ask State.cause (exec (.and 0 1) (withR01 200 7)) = some none ∧
      ask State.cause (exec (.and 8 8) (withR01 200 7)) = some (some .invalidRegister) ∧
      ask State.info (exec (.and 7 8) (withR01 200 7)) = some 8 := by decide

theorem witness_OrWritesTheBitwiseOr :
    (0 : Byte).toNat < 8 ∧ (1 : Byte).toNat < 8 ∧
      ask State.cause (exec (.or 0 1) (withR01 200 7)) = some none ∧
      ask State.cause (exec (.or 8 8) (withR01 200 7)) = some (some .invalidRegister) ∧
      ask State.info (exec (.or 7 8) (withR01 200 7)) = some 8 := by decide

theorem witness_XorWritesTheBitwiseXor :
    (0 : Byte).toNat < 8 ∧ (1 : Byte).toNat < 8 ∧
      ask State.cause (exec (.xor 0 1) (withR01 200 7)) = some none ∧
      ask State.cause (exec (.xor 8 8) (withR01 200 7)) = some (some .invalidRegister) ∧
      ask State.info (exec (.xor 7 8) (withR01 200 7)) = some 8 := by decide

theorem witness_ShlShiftsLeftByTheWholeAmount :
    (0 : Byte).toNat < 8 ∧ (1 : Byte).toNat < 8 ∧
      ask State.cause (exec (.shl 0 1) (withR01 200 7)) = some none ∧
      ask State.cause (exec (.shl 8 8) (withR01 200 7)) = some (some .invalidRegister) ∧
      ask State.info (exec (.shl 7 8) (withR01 200 7)) = some 8 := by decide

theorem witness_ShrShiftsRightByTheWholeAmount :
    (0 : Byte).toNat < 8 ∧ (1 : Byte).toNat < 8 ∧
      ask State.cause (exec (.shr 0 1) (withR01 200 7)) = some none ∧
      ask State.cause (exec (.shr 8 8) (withR01 200 7)) = some (some .invalidRegister) ∧
      ask State.info (exec (.shr 7 8) (withR01 200 7)) = some 8 := by decide

theorem witness_DivWritesTheQuotientAndHaltsOnZero :
    (0 : Byte).toNat < 8 ∧ (1 : Byte).toNat < 8 ∧ (withR01 200 7).reg 1 ≠ 0 ∧ (withR01 200 0).reg 1 = 0 ∧
      ask State.cause (exec (.div 0 1) (withR01 200 7)) = some none ∧
      ask State.cause (exec (.div 8 8) (withR01 200 7)) = some (some .invalidRegister) ∧
      ask State.info (exec (.div 7 8) (withR01 200 7)) = some 8 := by decide

theorem witness_ModWritesTheRemainderAndHaltsOnZero :
    (0 : Byte).toNat < 8 ∧ (1 : Byte).toNat < 8 ∧ (withR01 200 7).reg 1 ≠ 0 ∧ (withR01 200 0).reg 1 = 0 ∧
      ask State.cause (exec (.mod 0 1) (withR01 200 7)) = some none ∧
      ask State.cause (exec (.mod 8 8) (withR01 200 7)) = some (some .invalidRegister) ∧
      ask State.info (exec (.mod 7 8) (withR01 200 7)) = some 8 := by decide

theorem witness_IncAddsOneMod256 :
    (7 : Byte).toNat < 8 ∧ ask State.cause (exec (.inc 7) (withR01 200 7)) = some none ∧
      8 ≤ (8 : Byte).toNat ∧ ask State.info (exec (.inc 8) (withR01 200 7)) = some 8 := by decide

theorem witness_DecSubtractsOneMod256 :
    (7 : Byte).toNat < 8 ∧ ask State.cause (exec (.dec 7) (withR01 200 7)) = some none ∧
      8 ≤ (8 : Byte).toNat ∧ ask State.info (exec (.dec 8) (withR01 200 7)) = some 8 := by decide

theorem witness_NotComplementsEveryBit :
    (7 : Byte).toNat < 8 ∧ ask State.cause (exec (.not 7) (withR01 200 7)) = some none ∧
      8 ≤ (8 : Byte).toNat ∧ ask State.info (exec (.not 8) (withR01 200 7)) = some 8 := by decide

theorem witness_PrnSendsTheRegisterToTheReporter :
    (7 : Byte).toNat < 8 ∧ ask State.cause (exec (.prn 7) (withR01 200 7)) = some none ∧
      8 ≤ (8 : Byte).toNat ∧ ask State.info (exec (.prn 8) (withR01 200 7)) = some 8 := by decide

/-- The step clause of PRN, at 254. -/
theorem witness_PrnSendsTheRegisterToTheReporter_step :
    Enabled (atPc (withR01 5 0) 254 [0x47, 0]) ∧
      decode (atPc (withR01 5 0) 254 [0x47, 0]).bytesAtPc = .ok (.prn 0) [] := ⟨⟨rfl, rfl⟩, by decide⟩

theorem witness_LdiLoadsTheImmediate :
    (7 : Byte).toNat < 8 ∧ ask State.sp (exec (.ldi 7 255) State.reset) = some 255 ∧
      8 ≤ (8 : Byte).toNat ∧ ask State.info (exec (.ldi 8 255) State.reset) = some 8 := by decide

/-- The step clause of LDI, at 252, the last address where it holds. -/
theorem witness_LdiLoadsTheImmediate_step :
    Enabled (atPc State.reset 252 [0x82, 7, 9]) ∧
      decode (atPc State.reset 252 [0x82, 7, 9]).bytesAtPc = .ok (.ldi 7 9) [0] ∧
      (atPc State.reset 252 [0x82, 7, 9]).pc.toNat + 3 ≤ 255 := ⟨⟨rfl, rfl⟩, by decide, by decide⟩

theorem witness_QuotientAndRemainderRebuildTheDividend :
    (0 : Byte).toNat < 8 ∧ (1 : Byte).toNat < 8 ∧ (withR01 200 7).reg 1 ≠ 0 := by decide

/-- Each clause: an operation of another kind, both register checks, and a step. -/
theorem witness_UnsupportedOperationIsCheckedAndNeverOccurs :
    Mnemonic.ldi ∈ [Mnemonic.hlt, .ldi, .prn, .push, .pop] ∧ (7 : Byte).toNat < 8 ∧ 8 ≤ (8 : Byte).toNat ∧
      (State.reset.aluBinary .ldi 7 7).cause = some .unsupportedOperation ∧
      (State.reset.aluBinary .ldi 7 8).cause = some .invalidRegister ∧
      (State.reset.aluUnary .hlt 8).cause = some .invalidRegister ∧
      ldiAt250.cause ≠ some .unsupportedOperation ∧ ask State.cause (step ldiAt250) = some none := by decide

/-- HLT at the last address. -/
theorem witness_HltHaltsAndWritesNothingElse :
    Enabled (atPc State.reset 255 [0x01]) ∧ (atPc State.reset 255 [0x01]).mem.read 255 = 0x01 := ⟨⟨rfl, rfl⟩, by decide⟩

/-- Each clause: SP = 1, the lowest that pushes, SP = 0, and a bad operand. -/
theorem witness_PushStoresBelowTheStackPointer :
    (withSp 1).sp ≠ 0 ∧ (withSp 0).sp = 0 ∧ (7 : Byte).toNat < 8 ∧ 8 ≤ (8 : Byte).toNat := by decide

/-- Each clause: SP beside 0xF4 on both sides, SP = 0xF4, both kinds of register, and a bad operand. -/
theorem witness_PopLoadsTheTopOfTheStack :
    (withSp 0xF3).sp ≠ 0xF4 ∧ (withSp 0xF5).sp ≠ 0xF4 ∧ (withSp 0xF4).sp = 0xF4 ∧ (7 : Byte).toNat = 7 ∧
      (0 : Byte).toNat ≠ 7 ∧ 8 ≤ (8 : Byte).toNat := by decide

theorem witness_PopAfterPushRestoresTheRegisters : (withSp 0xF4).sp ≠ 0 ∧ (withSp 0xF4).sp ≠ 0xF5 := by decide

theorem witness_TheStackHolds244Elements : State.reset.sp = 0xF4 ∧ (7 : Byte).toNat < 8 := by decide

end Sys2Proof.Tests
end

section
/-! PROOF. The configuration check of an opcode map (00_scope.md R7). The check asks for a count and for no
repetition, the statement for a permutation of R66's descriptors; they agree because there are exactly 18 mnemonics
and a descriptor that R66 fixes is determined by its mnemonic. -/

namespace Sys2Proof

/-! ### The bits of an opcode byte -/

theorem operandCountOf_eq_div (b : Byte) : operandCountOf b = b.toNat / 64 := by
  have hb : b.toNat / 64 < 4 := by have := b.isLt; omega
  simp [operandCountOf, Nat.shiftRight_eq_div_pow, Nat.mod_eq_of_lt hb]

theorem isAlu_eq_iff_bit (b : Byte) (f : Bool) : isAlu b = f ↔ b.toNat / 32 % 2 = if f then 1 else 0 := by
  have hbit : isAlu b = decide (b.toNat / 32 % 2 = 1) := by
    simp [isAlu, BitVec.getLsbD, Nat.testBit_eq_decide_div_mod_eq]
  cases f <;> simp [hbit]

/-! ### The 18 mnemonics -/

/-- The instructions of R66, in its order. -/
def Mnemonic.all : List Mnemonic :=
  [.hlt, .ldi, .prn, .push, .pop, .add, .sub, .mul, .div, .mod, .and, .or, .xor, .shl, .shr, .inc, .dec, .not]

theorem Mnemonic.mem_all (m : Mnemonic) : m ∈ Mnemonic.all := by cases m <;> decide

theorem Mnemonic.nodup_all : Mnemonic.all.Nodup := by decide

/-- A list holds each mnemonic once exactly when it has no repetition and 18 entries. -/
theorem Mnemonic.perm_all_iff (l : List Mnemonic) : l.Perm Mnemonic.all ↔ l.Nodup ∧ l.length = 18 := by
  constructor
  · intro h
    exact ⟨h.nodup_iff.mpr nodup_all, h.length_eq⟩
  · rintro ⟨hnodup, hlen⟩
    have hsub : l.Subperm all := hnodup.subperm fun m _ => m.mem_all
    exact hsub.perm_of_length_le (le_of_eq hlen.symm)

/-! ### Descriptors -/

/-- Descriptors are R66's in some order exactly when each is the one R66 fixes for its mnemonic and the mnemonics are
R66's in some order. -/
theorem descriptors_perm_iff (ds : List Descriptor) :
    ds.Perm (Mnemonic.all.map Mnemonic.descriptor) ↔
      (∀ d ∈ ds, d = d.mnemonic.descriptor) ∧ (ds.map (·.mnemonic)).Perm Mnemonic.all := by
  constructor
  · intro h
    refine ⟨fun d hd => ?_, h.map (·.mnemonic)⟩
    obtain ⟨m, -, rfl⟩ := List.mem_map.mp (h.mem_iff.mp hd)
    rfl
  · rintro ⟨hfixed, hperm⟩
    have hds : (ds.map (·.mnemonic)).map Mnemonic.descriptor = ds := by
      rw [List.map_map]
      exact (List.map_congr_left fun d hd => (hfixed d hd).symm).trans (List.map_id ds)
    exact hds ▸ hperm.map Mnemonic.descriptor

/-! ### The check -/

/-- What the configuration check asks of a map. -/
theorem opcodeMapOk_iff (m : List (Byte × Descriptor)) :
    opcodeMapOk m = true ↔
      (∀ row ∈ m, (operandCountOf row.1 = row.2.operandCount ∧ isAlu row.1 = row.2.isAlu) ∧
          row.2 = row.2.mnemonic.descriptor) ∧
        (m.map (·.1)).Nodup ∧ (m.map (·.2.mnemonic)).Nodup ∧ m.length = 18 := by
  simp [opcodeMapOk, and_assoc]

/-- A map passes exactly when its bytes' bits agree with its descriptors, no byte stands twice, and the descriptors are
R66's in some order. -/
theorem opcodeMapOk_iff_perm (m : List (Byte × Descriptor)) :
    opcodeMapOk m = true ↔
      (∀ row ∈ m, operandCountOf row.1 = row.2.operandCount ∧ isAlu row.1 = row.2.isAlu) ∧
        (m.map (·.1)).Nodup ∧ (m.map (·.2)).Perm (Mnemonic.all.map Mnemonic.descriptor) := by
  rw [opcodeMapOk_iff, descriptors_perm_iff, Mnemonic.perm_all_iff]
  simp only [List.map_map, List.length_map, List.forall_mem_map, Function.comp_def, forall_and, and_assoc,
    and_left_comm]

/-- Settles O8: the check's bits are R7's quotients of the byte, and R66's list is `Mnemonic.all` with the descriptor
of each. -/
theorem opcodeMapsAreHeldToTheEncodingContract : Obligations.OpcodeMapsAreHeldToTheEncodingContract := by
  refine ⟨fun m => ?_, opcodeMapOk_opcodeMap⟩
  simp only [opcodeMapOk_iff_perm, operandCountOf_eq_div, isAlu_eq_iff_bit]
  exact Iff.rfl

end Sys2Proof
end

section
/-! PROOF. The decoder at the pc: it reads back what the encoder writes, and from the bytes at the pc it reads the
instruction that a step fetches (30_encoding.md R71; 40_execution_loop.md R82 to R84). -/

namespace Sys2Proof

theorem operandCountOf_mnemonic (i : Instr) : operandCountOf i.mnemonic.opcode = i.operands.length := by
  rw [operandCountOf_opcode]
  cases i <;> rfl

@[simp] theorem buildInstr_operands (i : Instr) : buildInstr i.mnemonic i.operands = some i := by
  cases i <;> rfl

/-- The decoder reads back what the encoder writes, whatever follows it (30_encoding.md R71). -/
theorem decode_encode_append (i : Instr) (rest : List Byte) : decode (encode i ++ rest) = .ok i rest := by
  simp [encode, decode, dispatch_opcode, operandCountOf_mnemonic]

end Sys2Proof

namespace Sys2Proof.Machine

/-- While the operands of the opcode byte lie in memory, the bytes at the pc begin with it and them. -/
theorem take_bytesAtPc {s : State} (h : s.pc.toNat + operandCountOf s.fetchOpcode.ir ≤ 255) :
    s.bytesAtPc.take (operandCountOf s.fetchOpcode.ir + 1) = s.fetchOpcode.ir :: operandBytes s.fetchOpcode := by
  have hmin : min (operandCountOf s.fetchOpcode.ir + 1) (256 - s.pc.toNat) = operandCountOf s.fetchOpcode.ir + 1 := by
    omega
  rw [State.bytesAtPc, ← List.map_take, List.take_range, Config.memSize, hmin, List.range_succ_eq_map]
  simp [operandBytes, Function.comp_def, Nat.add_assoc, Nat.add_comm 1]

/-- The instruction a step fetches is the one the decoder reads from the bytes at the pc. -/
theorem decode_bytesAtPc {s : State} {i : Instr} (h : s.pc.toNat + operandCountOf s.fetchOpcode.ir ≤ 255)
    (hc : i.mnemonic.opcode = s.fetchOpcode.ir) (ho : i.operands = operandBytes s.fetchOpcode) :
    decode s.bytesAtPc = .ok i (s.bytesAtPc.drop (operandCountOf s.fetchOpcode.ir + 1)) := by
  have henc : encode i = s.bytesAtPc.take (operandCountOf s.fetchOpcode.ir + 1) := by
    rw [take_bytesAtPc h, encode, hc, ho]
  conv_lhs => rw [← List.take_append_drop (operandCountOf s.fetchOpcode.ir + 1) s.bytesAtPc, ← henc]
  exact decode_encode_append i _

end Sys2Proof.Machine
end

section
/-! PROOF. A register other than SP matters only to the instructions that name it (10_state.md R24): a write to it
commutes with every operation that is given other registers, and no operation writes it that is not given it. -/

namespace Sys2Proof.Machine

/-! ### Writing a register other than SP before an instruction that does not name it, or after -/

section
variable (s : State) {r : Fin 8} (v : Int)

theorem setReg_comm {q : Fin 8} (h : q ≠ r) (w : Int) :
    (s.setReg r v).setReg q w = (s.setReg q w).setReg r v := by
  have hval : r.val ≠ q.val := fun e => h (Fin.ext e.symm)
  simp [State.setReg, Vector.set_comm _ _ hval]

theorem sp_setReg_other (h : r ≠ 7) : (s.setReg r v).sp = s.sp :=
  reg_setReg_other s v h.symm

theorem spDown_setReg (h : r ≠ 7) : (s.setReg r v).spDown = s.spDown.setReg r v := by
  rw [State.spDown, sp_setReg_other s v h]
  exact setReg_comm s v h.symm _

theorem spUp_setReg (h : r ≠ 7) : (s.setReg r v).spUp = s.spUp.setReg r v := by
  rw [State.spUp, sp_setReg_other s v h]
  exact setReg_comm s v h.symm _

theorem pushAddress_setReg (h : r ≠ 7) : (s.setReg r v).pushAddress = s.pushAddress := by
  rw [State.pushAddress, spDown_setReg s v h, sp_setReg_other _ v h, State.pushAddress]

/-- A register check goes to a register other than `r`, or to the fault, which reads no register. -/
theorem withReg_setReg {b : Byte} (hb : b.toNat ≠ r.val) {go go' : Fin 8 → State}
    (hgo : ∀ q, q ≠ r → go' q = (go q).setReg r v) :
    (s.setReg r v).withReg b go' = (s.withReg b go).setReg r v := by
  by_cases hlt : b.toNat < 8
  · rw [withReg_of_lt _ _ hlt, withReg_of_lt _ _ hlt]
    exact hgo _ (Fin.ne_of_val_ne hb)
  · rw [withReg_of_ge _ _ (by omega), withReg_of_ge _ _ (by omega)]
    rfl

theorem aluApply_setReg (m : Mnemonic) {q : Fin 8} (hq : q ≠ r) (vb : Byte) :
    (s.setReg r v).aluApply m q vb = (s.aluApply m q vb).setReg r v := by
  rw [State.aluApply, State.aluApply, reg_setReg_other s v hq]
  cases aluFn m with
  | none => rfl
  | some f =>
    by_cases hz : (dividesBy m && vb == 0) = true
    · simp only [if_pos hz]
      rfl
    · simp only [if_neg hz]
      exact setReg_comm s v hq _

theorem aluBinary_setReg (m : Mnemonic) {a b : Byte} (ha : a.toNat ≠ r.val) (hb : b.toNat ≠ r.val) :
    (s.setReg r v).aluBinary m a b = (s.aluBinary m a b).setReg r v :=
  withReg_setReg s v ha fun _ hq => withReg_setReg s v hb fun p hp => by
    rw [reg_setReg_other s v hp, aluApply_setReg s v m hq]

theorem aluUnary_setReg (m : Mnemonic) {a : Byte} (ha : a.toNat ≠ r.val) :
    (s.setReg r v).aluUnary m a = (s.aluUnary m a).setReg r v :=
  withReg_setReg s v ha fun _ hq => aluApply_setReg s v m hq 0

theorem execPush_setReg (hr : r ≠ 7) {a : Byte} (ha : a.toNat ≠ r.val) :
    execPush a (s.setReg r v) = onNext (fun u => u.setReg r v) (execPush a s) := by
  refine congrArg Host.Outcome.next (withReg_setReg s v ha fun q hq => ?_)
  have hp : s.pushAddress < Config.memSize := byte_lt_memSize s.spDown.sp
  rw [sp_setReg_other s v hr, pushAddress_setReg s v hr, spDown_setReg s v hr, reg_setReg_other s.spDown v hq,
    memWrite_of_lt _ _ hp, memWrite_of_lt _ _ hp]
  by_cases hs : s.sp = 0
  · simp only [if_pos hs]
    rfl
  · simp only [if_neg hs]
    rfl

theorem execPop_setReg (hr : r ≠ 7) {a : Byte} (ha : a.toNat ≠ r.val) :
    execPop a (s.setReg r v) = onNext (fun u => u.setReg r v) (execPop a s) := by
  refine congrArg Host.Outcome.next (withReg_setReg s v ha fun q hq => ?_)
  rw [sp_setReg_other s v hr, memRead_of_lt _ (byte_lt_memSize s.sp), memRead_of_lt _ (byte_lt_memSize s.sp)]
  by_cases hs : popEmpty s.sp = true
  · simp only [if_pos hs]
    rfl
  · simp only [if_neg hs]
    rw [setReg_mem, setReg_comm s v hq, spUp_setReg _ v hr]

end

/-- An instruction reads a register other than SP only as one of its operands (10_state.md R24). -/
theorem exec_setReg (i : Instr) (s : State) {r : Fin 8} (v : Int) (hr : r ≠ 7)
    (hi : ∀ b ∈ i.regOperands, b.toNat ≠ r.val) :
    exec i (s.setReg r v) = onNext (fun u => u.setReg r v) (exec i s) := by
  cases i with
  | hlt => rfl
  | ldi a imm =>
    exact congrArg Host.Outcome.next (withReg_setReg s v (hi a List.mem_cons_self) fun q hq => setReg_comm s v hq _)
  | prn a =>
    refine congrArg Host.Outcome.next (withReg_setReg s v (hi a List.mem_cons_self) fun q hq => ?_)
    rw [reg_setReg_other s v hq]
    rfl
  | push a => exact execPush_setReg s v hr (hi a List.mem_cons_self)
  | pop a => exact execPop_setReg s v hr (hi a List.mem_cons_self)
  | add a b | sub a b | mul a b | div a b | mod a b | and a b | or a b | xor a b | shl a b | shr a b =>
    exact congrArg Host.Outcome.next
      (aluBinary_setReg s v _ (hi a List.mem_cons_self) (hi b (List.mem_cons_of_mem _ List.mem_cons_self)))
  | inc a | dec a | not a => exact congrArg Host.Outcome.next (aluUnary_setReg s v _ (hi a List.mem_cons_self))

/-! ### What a step leaves of a register other than SP -/

/-- An instruction writes a register other than SP only as its first operand. -/
theorem ExecOutcome.reg_eq {i : Instr} {s t : State} {r : Fin 8} (h : ExecOutcome i s t) (hr : r ≠ 7)
    (hi : ∀ b ∈ i.regOperands, b.toNat ≠ r.val) : t.reg r = s.reg r := by
  cases h with
  | halted | badRegister | divisionByZero | stackUnderflow | printed => rfl
  | wrote a ha hhead v =>
    exact reg_setReg_other s v (Fin.ne_of_val_ne (hi a (List.mem_of_mem_head? hhead)).symm)
  | pushed => exact reg_spDown_other s hr
  | popped a ha hpop =>
    subst hpop
    rw [reg_spUp_other _ hr]
    exact reg_setReg_other s _ (Fin.ne_of_val_ne (hi a List.mem_cons_self).symm)

@[simp] theorem reg_advance (s : State) (r : Fin 8) : s.advance.reg r = s.reg r := by
  rcases advance_cases s with ⟨-, e⟩ | ⟨-, -, e⟩ | ⟨-, -, e⟩ <;> rw [e] <;> rfl

/-- A step that changes a register other than SP runs an instruction that names it (10_state.md R24). -/
theorem step_reg_ne {s t : State} {r : Fin 8} (hr : r ≠ 7) (hstep : step s = .next t) (hne : t.reg r ≠ s.reg r) :
    ∃ (i : Instr) (rest : List Byte),
      decode s.bytesAtPc = .ok i rest ∧ ∃ b ∈ i.regOperands, b.toNat = r.val := by
  obtain ⟨-, hout⟩ := step_outcome hstep
  cases hout with
  | stopped | unknownOpcode | outOfBounds => exact absurd rfl hne
  | executed _ i u hn _ hc ho _ hu =>
    refine ⟨i, _, decode_bytesAtPc (s := s.hostStopAsked) hn hc ho, ?_⟩
    by_contra hnone
    push Not at hnone
    exact hne ((reg_advance u r).trans (hu.reg_eq hr hnone))

/-- Settles O29: the write commutes with each instruction that does not name the register, and every step that writes
the register has fetched an instruction that names it. -/
theorem registersButSpMatterOnlyAsOperands : Obligations.RegistersButSpMatterOnlyAsOperands :=
  ⟨fun i s _ v hr hi => exec_setReg i s v hr hi, fun _ _ _ hr hstep hne => step_reg_ne hr hstep hne⟩

end Sys2Proof.Machine
end

section
/-! PROOF. A bad register operand is found before anything is written, A before B (10_state.md R21; 60_exceptions.md
R152). -/

namespace Sys2Proof.Machine

theorem firstBadRegister_mem {i : Instr} {b : Byte} (h : firstBadRegister i = some b) : b ∈ i.regOperands :=
  List.mem_of_find?_eq_some h

theorem firstBadRegister_ge {i : Instr} {b : Byte} (h : firstBadRegister i = some b) : 8 ≤ b.toNat := by
  have hbad := List.find?_some h
  simpa [regByteOk] using hbad

/-- The check of the only register operand raises InvalidRegister when that operand is bad. -/
theorem withReg_of_firstBad {i : Instr} {a b : Byte} (hi : i.regOperands = [a]) (h : firstBadRegister i = some b)
    (s : State) (go : Fin 8 → State) : s.withReg a go = FaultedFrom s .invalidRegister (zext9 b) := by
  have hab : b = a := List.mem_singleton.1 (hi ▸ firstBadRegister_mem h)
  subst hab
  exact withReg_of_ge s go (firstBadRegister_ge h)

/-- The checks of operands A and B raise InvalidRegister with the first bad one of them. -/
theorem aluBinary_of_firstBad {i : Instr} {a c b : Byte} (hi : i.regOperands = [a, c])
    (h : firstBadRegister i = some b) (s : State) (m : Mnemonic) :
    s.aluBinary m a c = FaultedFrom s .invalidRegister (zext9 b) := by
  by_cases ha : a.toNat < 8
  · have hge := firstBadRegister_ge h
    have hmem : b = a ∨ b = c := by simpa [hi] using firstBadRegister_mem h
    obtain rfl : b = c := hmem.resolve_left (by rintro rfl; omega)
    rw [State.aluBinary, withReg_of_lt s _ ha, withReg_of_ge s _ hge, raise_eq]
  · have hab : some a = some b := (firstBad_binary_left hi (by omega)).symm.trans h
    obtain rfl := Option.some.inj hab
    rw [State.aluBinary, withReg_of_ge s _ (by omega), raise_eq]

/-- An instruction with a bad register operand raises InvalidRegister with the first one and writes nothing else. -/
theorem exec_of_firstBad {i : Instr} {b : Byte} (h : firstBadRegister i = some b) (s : State) :
    exec i s = .next (FaultedFrom s .invalidRegister (zext9 b)) := by
  cases i with
  | hlt => cases h
  | ldi a _ | prn a | push a | pop a | inc a | dec a | not a =>
    exact congrArg Host.Outcome.next (withReg_of_firstBad rfl h s _)
  | add a c | sub a c | mul a c | div a c | mod a c | and a c | or a c | xor a c | shl a c | shr a c =>
    exact congrArg Host.Outcome.next (aluBinary_of_firstBad rfl h s _)

/-- An instruction without a bad register operand does not raise InvalidRegister. -/
theorem ExecOutcome.cause_of_firstBad_none {i : Instr} {s t : State} (h : ExecOutcome i s t)
    (hi : firstBadRegister i = none) (ht : t.cause = some .invalidRegister) : s.cause = some .invalidRegister := by
  cases h with
  | badRegister b hb => simp [hi] at hb
  | halted | divisionByZero | stackUnderflow => simp at ht
  | wrote | printed | pushed | popped => exact ht

/-- Settles O30: the operand checks stand before every write, and only they raise InvalidRegister. -/
theorem badRegisterOperandsFaultBeforeAnyWrite : Obligations.BadRegisterOperandsFaultBeforeAnyWrite :=
  ⟨fun _ s _ h => ⟨firstBadRegister_ge h, exec_of_firstBad h s⟩,
    fun _ _ _ hi he ht => (exec_outcome he).cause_of_firstBad_none hi ht⟩

end Sys2Proof.Machine
end

section
/-! PROOF. The state after reset (10_state.md R36). -/

namespace Sys2Proof.Machine

theorem reset_reg_of_ne_sp : ∀ r : Fin 8, r ≠ 7 → State.reset.reg r = 0 := by decide

theorem reset_memRead {a : Nat} (h : a ≤ 255) : State.reset.memRead a = some 0 :=
  memRead_of_lt State.reset (Nat.lt_succ_of_le h)

/-- Settles O1: the registers one by one, memory because nothing is listed in it, the rest by the reset state's text. -/
theorem resetStateIsTheSpecs : Obligations.ResetStateIsTheSpecs :=
  ⟨reset_reg_of_ne_sp, rfl, rfl, fun _ h => reset_memRead h, rfl, rfl, rfl, rfl⟩

end Sys2Proof.Machine
end

section
/-! PROOF. The opcode map byte by byte (30_encoding.md R66, R69). Each row of R66 is a case of `decode_encode_append`
and of `dispatch_opcode_descriptor`; a byte outside the rows is unknown because `dispatch` answers only the opcodes of
the 18 mnemonics. -/

namespace Sys2Proof

/-- The Dispatcher knows exactly the opcode bytes of the 18 mnemonics (30_encoding.md R66). -/
theorem dispatch_eq_none_iff {op : Byte} : dispatch op = none ↔ op ∉ Mnemonic.all.map Mnemonic.opcode := by
  constructor
  · intro hnone hmem
    obtain ⟨m, -, rfl⟩ := List.mem_map.mp hmem
    simp [dispatch_opcode] at hnone
  · intro hop
    refine Option.eq_none_iff_forall_ne_some.mpr fun d hd => hop ?_
    exact List.mem_map.mpr ⟨d.mnemonic, d.mnemonic.mem_all, (dispatch_eq_some hd).symm⟩

theorem decode_cons_of_dispatch_eq_none {op : Byte} (h : dispatch op = none) (rest : List Byte) :
    decode (op :: rest) = .unknownOpcode op := by
  simp [decode, h]

theorem map_dispatch_opcode (ms : List Mnemonic) :
    (ms.map Mnemonic.opcode).map dispatch = ms.map (fun m => some m.descriptor) := by
  simp [dispatch_opcode_descriptor]

/-- Settles O6: R66's bytes are the opcodes of the encoder, so each row is what the decoder reads back and what the
Dispatcher answers for a mnemonic; no other byte has a descriptor. -/
theorem decoderReadsExactlyTheOpcodeMap : Obligations.DecoderReadsExactlyTheOpcodeMap := by
  intro a b rest
  have reads (i : Instr) : decode (encode i ++ rest) = .ok i rest := decode_encode_append i rest
  refine ⟨reads .hlt, reads (.ldi a b), reads (.prn a), reads (.push a), reads (.pop a),
    reads (.add a b), reads (.sub a b), reads (.mul a b), reads (.div a b), reads (.mod a b),
    reads (.and a b), reads (.or a b), reads (.xor a b), reads (.shl a b), reads (.shr a b),
    reads (.inc a), reads (.dec a), reads (.not a), ?_, ?_, ?_, fun op hop => ?_⟩
  · exact map_dispatch_opcode [.hlt, .ldi, .prn, .push, .pop]
  · exact map_dispatch_opcode [.add, .sub, .mul, .div, .mod, .and, .or, .xor, .shl, .shr]
  · exact map_dispatch_opcode [.inc, .dec, .not]
  · have hnone : dispatch op = none := dispatch_eq_none_iff.mpr hop
    exact ⟨decode_cons_of_dispatch_eq_none hnone rest, hnone⟩

end Sys2Proof
end

section
/-! PROOF. The Loader writes an image from address 0 up, into a memory where nothing is listed (40_execution_loop.md
R95). -/

namespace Sys2Proof.Machine

theorem launch_of_le {image : List Byte} (h : image.length ≤ 256) :
    State.launch image = some { State.reset with mem := Memory.load [] 0 image } :=
  if_pos h

theorem launch_of_gt {image : List Byte} (h : 256 < image.length) : State.launch image = none :=
  if_neg (Nat.not_le.mpr h)

theorem read_image {image : List Byte} {i : Nat} (h : i < image.length) :
    (Memory.load [] 0 image).read i = image[i] := by
  simp [Memory.read_load, h]

theorem read_after_image {image : List Byte} {i : Nat} (h : image.length ≤ i) :
    (Memory.load [] 0 image).read i = 0 := by
  simp [Memory.read_load, Nat.not_lt.mpr h, Config.unlistedByte]

/-- Settles O2: the image and the cells after it are read from the loaded memory, the one field the Loader writes. -/
theorem launchWritesTheImageAndRefusesLongerOnes : Obligations.LaunchWritesTheImageAndRefusesLongerOnes :=
  fun _ => ⟨fun hle => ⟨_, launch_of_le hle, fun _ hi => read_image hi, fun _ hi _ => read_after_image hi, rfl⟩,
    launch_of_gt⟩

end Sys2Proof.Machine
end

section
/-! PROOF. The step of a Running engine, one rule for each thing the fetch can answer (40_execution_loop.md R81 to R88,
R93). The fetch of the state `atExecute s` decides between them, and the decoder at the pc says when it answers an
instruction. -/

namespace Sys2Proof.Machine

/-! ### The step, by the fetch's answer -/

section
variable {s : State}

theorem step_of_enabled (h : Enabled s) : step s = stepSampled false s.hostStopAsked := by
  obtain ⟨hrun, hstop⟩ := h
  rw [step_of_running hrun, hstop]

theorem step_of_fetch_unknown (h : Enabled s) {b : Byte} (hf : (atExecute s).fetchOperands = .unknownOpcode b) :
    step s = .next (FaultedFrom (atExecute s) .unknownOpcode (zext9 b)) := by
  rw [atExecute] at hf
  simp only [step_of_enabled h, stepSampled, hf]
  rfl

theorem step_of_fetch_outOfBounds (h : Enabled s) {a : Nat} (hf : (atExecute s).fetchOperands = .outOfBounds a) :
    step s = .next (FaultedFrom (atExecute s) .addressOutOfBounds (BitVec.ofNat 9 a)) := by
  rw [atExecute] at hf
  simp only [step_of_enabled h, stepSampled, hf]
  rfl

theorem step_of_fetch_instr (h : Enabled s) {i : Instr} {u : State} (hf : (atExecute s).fetchOperands = .instr i)
    (he : exec i (atExecute s) = .next u) : step s = .next u.advance := by
  rw [atExecute] at hf he
  simp only [step_of_enabled h, stepSampled, hf, he]
  rfl

end

/-- Settles O18: a step answers only in Running, and there everything a step can do is a next state. -/
theorem exactlyTheRunningStatesHaveANextStep : Obligations.ExactlyTheRunningStatesHaveANextStep := by
  intro s
  constructor
  · rintro ⟨t, hstep⟩
    exact (step_outcome hstep).1
  · intro hrun
    obtain ⟨t, hstep, -⟩ := stepSampled_cases s.hostStopNow s.hostStopAsked
    exact ⟨t, (step_of_running hrun).trans hstep⟩

/-- Settles O15: a byte that is no opcode has no descriptor, and the fetch answers it before reading an operand. -/
theorem unknownOpcodeEndsTheRunWithTheByte : Obligations.UnknownOpcodeEndsTheRunWithTheByte := by
  rintro s op henabled rfl hop
  have hnone : dispatch (atExecute s).ir = none := dispatch_eq_none_iff.mpr hop
  exact step_of_fetch_unknown henabled (fetchOperands_unknown hnone)

/-! ### The operand fetch -/

/-- No instruction takes more than two operand bytes (30_encoding.md R66). -/
theorem operandCountOf_le_two {b : Byte} {d : Descriptor} (h : dispatch b = some d) : operandCountOf b ≤ 2 := by
  rw [dispatch_eq_some h, operandCountOf_opcode]
  cases d.mnemonic <;> decide

/-- The mnemonic of an instruction is the one the Dispatcher answers for its opcode byte. -/
theorem mnemonic_eq_of_dispatch {i : Instr} {b : Byte} {d : Descriptor} (hc : i.mnemonic.opcode = b)
    (h : dispatch b = some d) : i.mnemonic = d.mnemonic := by
  rw [← hc, dispatch_opcode_descriptor] at h
  exact congrArg Descriptor.mnemonic (Option.some.inj h)

/-- The first operand address above 255 is always 256: it is pc + 1 at pc = 255, and otherwise pc + 2. -/
theorem firstOutOfBounds_eq {pc n : Nat} (hpc : pc < 256) (hn : n ≤ 2) (h : 255 < pc + n) :
    (if 255 < pc + 1 then pc + 1 else pc + 2) = 256 := by
  split <;> omega

/-- Settles O16: the byte's count field is how many operand bytes are read, and at most 2, so the first of their
addresses that is out of range is 256. -/
theorem operandFetchReadsExactlyTheOperandsOrFaults : Obligations.OperandFetchReadsExactlyTheOperandsOrFaults := by
  intro s d henabled hd
  have hknown : dispatch (atExecute s).ir ≠ none := Option.ne_none_iff_exists'.mpr ⟨d, hd⟩
  constructor
  · intro hn
    obtain ⟨i, hf, hc, ho⟩ := fetchOperands_instr hknown hn
    exact ⟨i, hf, mnemonic_eq_of_dispatch hc hd, ho⟩
  · intro hn
    rw [firstOutOfBounds_eq s.pc.isLt (operandCountOf_le_two hd) hn]
    exact step_of_fetch_outOfBounds henabled (fetchOperands_outOfBounds hknown hn)

/-! ### The fetch, from the decoder at the pc -/

/-- The decoder answers an instruction only for a byte of the map, and only when its operand bytes are there. -/
theorem decode_cons_eq_ok {op : Byte} {bytes rest : List Byte} {i : Instr} (h : decode (op :: bytes) = .ok i rest) :
    dispatch op ≠ none ∧ operandCountOf op ≤ bytes.length := by
  constructor
  · intro hnone
    simp [decode_cons_of_dispatch_eq_none hnone] at h
  · by_contra hlen
    cases hd : dispatch op <;> simp [decode, hd, hlen] at h

/-- The bytes at the pc are the opcode byte and the `255 - pc` bytes after it. -/
theorem bytesAtPc_eq_cons (s : State) :
    ∃ bytes, s.bytesAtPc = s.fetchOpcode.ir :: bytes ∧ bytes.length = 255 - s.pc.toNat := by
  have hpc := s.pc.isLt
  have hlen : Config.memSize - s.pc.toNat = (255 - s.pc.toNat) + 1 := by unfold Config.memSize; omega
  rw [State.bytesAtPc, hlen, List.range_succ_eq_map, List.map_cons]
  exact ⟨_, rfl, by simp⟩

/-- When the decoder reads an instruction at the pc, it ends at 255 at the latest and the fetch answers it
(30_encoding.md R71). -/
theorem fetchOperands_of_decode {s : State} {i : Instr} {rest : List Byte} (h : decode s.bytesAtPc = .ok i rest) :
    s.pc.toNat + operandCountOf s.fetchOpcode.ir ≤ 255 ∧ s.fetchOpcode.fetchOperands = .instr i := by
  obtain ⟨bytes, hbytes, hlen⟩ := bytesAtPc_eq_cons s
  obtain ⟨hknown, hcount⟩ := decode_cons_eq_ok (hbytes ▸ h)
  have hn : s.pc.toNat + operandCountOf s.fetchOpcode.ir ≤ 255 := by have := s.pc.isLt; omega
  obtain ⟨j, hf, hc, ho⟩ := fetchOperands_instr hknown hn
  have hok : Decoded.ok j _ = .ok i rest := (decode_bytesAtPc hn hc ho).symm.trans h
  injection hok with hij
  exact ⟨hn, hij ▸ hf⟩

/-! ### The advance -/

/-- No instruction writes the pc, the instruction register or the host's answers (40_execution_loop.md R86). -/
theorem ExecOutcome.sameSequencing {i : Instr} {s t : State} (h : ExecOutcome i s t) : SameSequencing s t := by
  cases h <;> exact ⟨rfl, rfl, rfl⟩

/-- Settles O12: the step ends with the advance of the state the instruction leaves, whose pc and opcode byte are
still those of the fetch; and the fetch has found the instruction to end at 255 at the latest. -/
theorem advanceFollowsTheInstruction : Obligations.AdvanceFollowsTheInstruction := by
  intro s u i rest henabled hdec he
  obtain ⟨hend, hf⟩ : s.pc.toNat + operandCountOf (s.mem.read s.pc.toNat) ≤ 255 ∧
      (atExecute s).fetchOperands = .instr i := fetchOperands_of_decode (s := s.hostStopAsked) hdec
  obtain ⟨hpc, hir, -⟩ : u.pc = s.pc ∧ u.ir = s.mem.read s.pc.toNat ∧ u.hostStop = s.hostStop.tail :=
    (exec_outcome he).sameSequencing
  have hstep : step s = .next u.advance := step_of_fetch_instr henabled hf he
  rw [← hir, ← hpc] at hend ⊢
  rcases advance_cases u with ⟨hrun, hadv⟩ | ⟨hrun, hn, hadv⟩ | ⟨hrun, hn, hadv⟩ <;> rw [hadv] at hstep
  · exact ⟨fun _ => hstep, fun h => absurd h hrun, fun h => absurd h hrun⟩
  · exact ⟨fun h => absurd hrun h, fun _ hle => absurd hn (Nat.not_lt.mpr hle), fun _ _ => ⟨by omega, hstep⟩⟩
  · exact ⟨fun h => absurd hrun h, fun _ _ => hstep, fun _ hgt => absurd hgt (Nat.not_lt.mpr hn)⟩

end Sys2Proof.Machine
end

section
/-! PROOF. The ALU path (41_alu.md R100, R115): what it leaves at each of its exits, and that UnsupportedOperation is
an exit no step of this hardware takes. -/

namespace Sys2Proof.Machine

/-! ### The exits of the path, in its own order -/

section
variable (s : State) (m : Mnemonic) {a b : Byte}

/-- A bad operand A is reported whatever operand B is. -/
theorem aluBinary_of_ge_left (ha : 8 ≤ a.toNat) (b : Byte) :
    s.aluBinary m a b = FaultedFrom s .invalidRegister (zext9 a) := by
  rw [State.aluBinary, withReg_of_ge s _ ha, raise_eq]

theorem aluBinary_of_ge_right (ha : a.toNat < 8) (hb : 8 ≤ b.toNat) :
    s.aluBinary m a b = FaultedFrom s .invalidRegister (zext9 b) := by
  rw [State.aluBinary, withReg_of_lt s _ ha, withReg_of_ge s _ hb, raise_eq]

theorem aluUnary_of_ge (ha : 8 ≤ a.toNat) : s.aluUnary m a = FaultedFrom s .invalidRegister (zext9 a) := by
  rw [State.aluUnary, withReg_of_ge s _ ha, raise_eq]

end

section
variable (s : State) {m : Mnemonic} (ra : Fin 8) {vb : Byte}

/-- A mnemonic outside the ALU's table raises UnsupportedOperation, the divisor not being looked at (R115). -/
theorem aluApply_of_unsupported (hm : aluFn m = none) (vb : Byte) :
    s.aluApply m ra vb = FaultedFrom s .unsupportedOperation (zext9 s.ir) := by
  simp only [State.aluApply, hm, raise_eq]

theorem aluApply_of_zero_divisor {f : Byte → Byte → Int} (hm : aluFn m = some f) (hd : dividesBy m = true) :
    s.aluApply m ra 0 = s.haltDz (zext9 s.ir) := by
  simp [State.aluApply, hm, hd]

/-- Outside a division by 0, an ALU operation is a single register write. -/
theorem aluApply_of_supported {f : Byte → Byte → Int} (hm : aluFn m = some f) (hd : dividesBy m = true → vb ≠ 0) :
    s.aluApply m ra vb = s.setReg ra (f (s.reg ra) vb) := by
  rcases aluApply_cases s m ra vb with ⟨hnone, _⟩ | ⟨hdiv, hzero, _⟩ | ⟨g, hg, happly⟩
  · rw [hm] at hnone; cases hnone
  · exact absurd hzero (hd hdiv)
  · rw [happly, Option.some.inj (hm.symm.trans hg)]

end

/-! ### UnsupportedOperation -/

/-- The mnemonics that R66 does not flag as ALU operations have no row in the ALU's table. -/
theorem aluFn_eq_none_iff (m : Mnemonic) : aluFn m = none ↔ m ∈ [Mnemonic.hlt, .ldi, .prn, .push, .pop] := by
  cases m <;> simp [aluFn]

/-- No instruction raises UnsupportedOperation. -/
theorem ExecOutcome.cause_unsupported {i : Instr} {s t : State} (h : ExecOutcome i s t)
    (ht : t.cause = some .unsupportedOperation) : s.cause = some .unsupportedOperation := by
  cases h with
  | halted | badRegister | divisionByZero | stackUnderflow => simp at ht
  | wrote | printed | pushed | popped => exact ht

/-- The advance does not raise it either. -/
theorem advance_cause_unsupported {s : State} (h : s.advance.cause = some .unsupportedOperation) :
    s.cause = some .unsupportedOperation := by
  rcases advance_cases s with ⟨_, hadv⟩ | ⟨_, _, hadv⟩ | ⟨_, _, hadv⟩
  · rwa [hadv] at h
  · simp [hadv, State.raiseOutOfBounds] at h
  · rwa [hadv] at h

theorem step_cause_unsupported {s t : State} (h : step s = .next t) (ht : t.cause = some .unsupportedOperation) :
    s.cause = some .unsupportedOperation := by
  obtain ⟨-, ho⟩ := step_outcome h
  cases ho with
  | stopped | unknownOpcode | outOfBounds => simp [State.raiseOutOfBounds] at ht
  | executed _ i u _ _ _ _ _ hu => exact hu.cause_unsupported (advance_cause_unsupported ht)

/-- Settles O46: the checks in the path's own order, and then the exits of a step one by one. -/
theorem unsupportedOperationIsCheckedAndNeverOccurs : Obligations.UnsupportedOperationIsCheckedAndNeverOccurs := by
  refine ⟨fun s m ra rb hm ha hb => ?_, fun s m ra ha => ⟨aluBinary_of_ge_left s m ha, aluUnary_of_ge s m ha⟩,
    fun s m ra rb ha hb => aluBinary_of_ge_right s m ha hb, fun s t hs hstep => mt (step_cause_unsupported hstep) hs⟩
  have hnone : aluFn m = none := (aluFn_eq_none_iff m).mpr hm
  exact ⟨(aluBinary_of_lt s m ha hb).trans (aluApply_of_unsupported s _ hnone _),
    (aluUnary_of_lt s m ha).trans (aluApply_of_unsupported s _ hnone _)⟩

end Sys2Proof.Machine
end

section
/-! PROOF. What an ALU instruction does, from its row in the ALU's table (41_alu.md R100): `exec` takes it to the ALU
path, its operation's exact value is known mod 256, and its operands and opcode byte are those of its constructor. -/

namespace Sys2Proof.Machine

/-! ### The operand checks and the encoding -/

theorem checksUnary_of_regOperands {i : Byte → Instr} (hi : ∀ a, (i a).regOperands = [a]) : ChecksUnary i :=
  fun s a ha => exec_of_firstBad (firstBad_unary (hi a) ha) s

theorem checksBinary_of_regOperands {i : Byte → Byte → Instr} (hi : ∀ a b, (i a b).regOperands = [a, b]) :
    ChecksBinary i :=
  fun s a b => ⟨fun ha => exec_of_firstBad (firstBad_binary_left (hi a b) ha) s,
    fun ha hb => exec_of_firstBad (firstBad_binary_right (hi a b) ha hb) s⟩

theorem encodedUnary_of_encode {op : Byte} {i : Byte → Instr} (hi : ∀ a, encode (i a) = [op, a]) :
    EncodedUnary op i := fun a rest => by
  have hdec := decode_encode_append (i a) rest
  rwa [hi] at hdec

theorem encodedBinary_of_encode {op : Byte} {i : Byte → Byte → Instr} (hi : ∀ a b, encode (i a b) = [op, a, b]) :
    EncodedBinary op i := fun a b rest => by
  have hdec := decode_encode_append (i a b) rest
  rwa [hi] at hdec

/-! ### The register write -/

/-- A register write leaves everything but its register as it was. -/
theorem onlyRegister_setReg (s : State) (r : Fin 8) (v : Int) : OnlyRegister r s (s.setReg r v) :=
  ⟨fun _ hq => reg_setReg_other s v (by simpa using hq), fun _ => rfl, ⟨rfl, rfl, rfl⟩, ⟨rfl, rfl, rfl⟩, rfl⟩

/-- A unary ALU instruction writes its operation's exact value mod 256. -/
theorem writesUnary_of_alu {i : Byte → Instr} {m : Mnemonic} {f : Byte → Byte → Int} {Result : Byte → Byte → Prop}
    (hi : ∀ a s, exec (i a) s = .next (s.aluUnary m a)) (hm : aluFn m = some f) (hd : dividesBy m = false)
    (hres : ∀ va r : Byte, (r.toNat : Int) = f va 0 % 256 → Result va r) : WritesUnary i Result := by
  intro s a ha
  refine ⟨_, ?_, hres _ _ (reg_setReg_toNat s _ _), onlyRegister_setReg s _ _⟩
  rw [hi, aluUnary_of_lt s m ha, aluApply_of_supported s _ hm (by simp [hd])]

/-- A binary ALU instruction that does not divide by 0 writes its operation's exact value mod 256. -/
theorem writesBinary_of_alu {i : Byte → Byte → Instr} {m : Mnemonic} {f : Byte → Byte → Int}
    {Guard : Byte → Byte → Prop} {Result : Byte → Byte → Byte → Prop}
    (hi : ∀ a b s, exec (i a b) s = .next (s.aluBinary m a b)) (hm : aluFn m = some f)
    (hd : ∀ va vb, Guard va vb → dividesBy m = true → vb ≠ 0)
    (hres : ∀ va vb r : Byte, (r.toNat : Int) = f va vb % 256 → Result va vb r) : WritesBinary i Guard Result := by
  intro s a b ha hb hguard
  refine ⟨_, ?_, hres _ _ _ (reg_setReg_toNat s _ _), onlyRegister_setReg s _ _⟩
  rw [hi, aluBinary_of_lt s m ha hb, aluApply_of_supported s _ hm (hd _ _ hguard)]

/-- The same for an operation that does not divide, whatever its operands. -/
theorem writesBinary_always_of_alu {i : Byte → Byte → Instr} {m : Mnemonic} {f : Byte → Byte → Int}
    {Result : Byte → Byte → Byte → Prop} (hi : ∀ a b s, exec (i a b) s = .next (s.aluBinary m a b))
    (hm : aluFn m = some f) (hd : dividesBy m = false)
    (hres : ∀ va vb r : Byte, (r.toNat : Int) = f va vb % 256 → Result va vb r) : WritesBinary i Always Result :=
  writesBinary_of_alu hi hm (fun _ _ _ hdiv => by simp [hd] at hdiv) hres

/-- A dividing ALU instruction takes the DivisionByZero exit when its divisor is 0. -/
theorem haltsOnZero_of_alu {i : Byte → Byte → Instr} {m : Mnemonic} {f : Byte → Byte → Int}
    (hi : ∀ a b s, exec (i a b) s = .next (s.aluBinary m a b)) (hm : aluFn m = some f) (hd : dividesBy m = true) :
    HaltsOnZero i := by
  intro s a b ha hb hzero
  rw [hi, aluBinary_of_lt s m ha hb, hzero, aluApply_of_zero_divisor s _ hm hd]
  rfl

end Sys2Proof.Machine
end

section
/-! PROOF. The values of the ALU operations (41_alu.md R101 to R113): the byte that agrees mod 256 with the exact value
of the operation is the one the rule gives. -/

namespace Sys2Proof.Machine

/-- A byte that agrees mod 256 with a natural number below 256 is that number. -/
theorem toNat_eq_of_mod {r : Byte} {n : Nat} (h : (r.toNat : Int) = (n : Int) % 256) (hn : n < 256) : r.toNat = n := by
  omega

/-- A byte that agrees mod 256 with another byte is that byte. -/
theorem eq_of_mod {r b : Byte} (h : (r.toNat : Int) = (b.toNat : Int) % 256) : r = b :=
  BitVec.eq_of_toNat_eq (toNat_eq_of_mod h b.isLt)

section
variable {va vb r : Byte}

theorem aluAdd_value (h : (r.toNat : Int) = aluAdd va vb % 256) : r.toNat = (va.toNat + vb.toNat) % 256 := by
  unfold aluAdd at h
  omega

theorem aluMul_value (h : (r.toNat : Int) = aluMul va vb % 256) : r.toNat = va.toNat * vb.toNat % 256 := by
  unfold aluMul at h
  exact_mod_cast h

/-- The quotient is at most the dividend, so nothing is reduced. -/
theorem aluDiv_value (h : (r.toNat : Int) = aluDiv va vb % 256) : r.toNat = va.toNat / vb.toNat :=
  toNat_eq_of_mod h ((Nat.div_le_self _ _).trans_lt va.isLt)

/-- The multiple of the divisor is at most the dividend, so the subtraction does not borrow. -/
theorem aluMod_value (h : (r.toNat : Int) = aluMod va vb % 256) :
    r.toNat = va.toNat - vb.toNat * (va.toNat / vb.toNat) := by
  have hle : vb.toNat * (va.toNat / vb.toNat) ≤ va.toNat := Nat.mul_div_le _ _
  refine toNat_eq_of_mod ?_ ((Nat.sub_le _ _).trans_lt va.isLt)
  rw [h, aluMod, Nat.cast_sub hle, Nat.cast_mul]

theorem aluAnd_value (h : (r.toNat : Int) = aluAnd va vb % 256) : r = va &&& vb := eq_of_mod h

theorem aluOr_value (h : (r.toNat : Int) = aluOr va vb % 256) : r = va ||| vb := eq_of_mod h

theorem aluXor_value (h : (r.toNat : Int) = aluXor va vb % 256) : r = va ^^^ vb := eq_of_mod h

/-- The shifted value is at most the value, so nothing is reduced. -/
theorem aluShr_value (h : (r.toNat : Int) = aluShr va vb % 256) : r.toNat = va.toNat / 2 ^ vb.toNat :=
  toNat_eq_of_mod h ((Nat.div_le_self _ _).trans_lt va.isLt)

/-- A byte shifted right by 8 or more is 0. -/
theorem shiftRight_eq_zero (hn : 8 ≤ vb.toNat) : va.toNat / 2 ^ vb.toNat = 0 :=
  Nat.div_eq_of_lt (va.isLt.trans_le (Nat.pow_le_pow_right (by decide) hn))

theorem aluInc_value (h : (r.toNat : Int) = aluInc va % 256) : r.toNat = (va.toNat + 1) % 256 := by
  unfold aluInc at h
  omega

theorem aluNot_value (h : (r.toNat : Int) = aluNot va % 256) : r = ~~~va := by
  have hlt := va.isLt
  apply BitVec.eq_of_toNat_eq
  rw [BitVec.toNat_not]
  unfold aluNot at h
  omega

end

/-! ### The instructions -/

/-- Settles O32: the exact sum, reduced by the register write. -/
theorem addWritesTheSumMod256 : Obligations.AddWritesTheSumMod256 :=
  ⟨writesBinary_always_of_alu (m := .add) (fun _ _ _ => rfl) rfl rfl fun _ _ _ => aluAdd_value,
    checksBinary_of_regOperands fun _ _ => rfl, encodedBinary_of_encode fun _ _ => rfl⟩

/-- Settles O33: the rule's value is the operation's own, before any reduction. -/
theorem subWritesTheDifferenceMod256 : Obligations.SubWritesTheDifferenceMod256 :=
  ⟨writesBinary_always_of_alu (m := .sub) (fun _ _ _ => rfl) rfl rfl fun _ _ _ h => h,
    checksBinary_of_regOperands fun _ _ => rfl, encodedBinary_of_encode fun _ _ => rfl⟩

/-- Settles O34: the exact product, reduced by the register write. -/
theorem mulWritesTheLowByteOfTheProduct : Obligations.MulWritesTheLowByteOfTheProduct :=
  ⟨writesBinary_always_of_alu (m := .mul) (fun _ _ _ => rfl) rfl rfl fun _ _ _ => aluMul_value,
    checksBinary_of_regOperands fun _ _ => rfl, encodedBinary_of_encode fun _ _ => rfl⟩

/-- Settles O35: `aluDiv_value` past the divisor check, and the check's own exit. -/
theorem divWritesTheQuotientAndHaltsOnZero : Obligations.DivWritesTheQuotientAndHaltsOnZero :=
  ⟨writesBinary_of_alu (m := .div) (fun _ _ _ => rfl) rfl (fun _ _ hne _ => hne) fun _ _ _ => aluDiv_value,
    haltsOnZero_of_alu (m := .div) (fun _ _ _ => rfl) rfl rfl,
    checksBinary_of_regOperands fun _ _ => rfl, encodedBinary_of_encode fun _ _ => rfl⟩

/-- Settles O36: `aluMod_value` past the divisor check, and the check's own exit. -/
theorem modWritesTheRemainderAndHaltsOnZero : Obligations.ModWritesTheRemainderAndHaltsOnZero :=
  ⟨writesBinary_of_alu (m := .mod) (fun _ _ _ => rfl) rfl (fun _ _ hne _ => hne) fun _ _ _ => aluMod_value,
    haltsOnZero_of_alu (m := .mod) (fun _ _ _ => rfl) rfl rfl,
    checksBinary_of_regOperands fun _ _ => rfl, encodedBinary_of_encode fun _ _ => rfl⟩

/-- Settles O37: the register holds `va &&& vb`, read bit by bit. -/
theorem andWritesTheBitwiseAnd : Obligations.AndWritesTheBitwiseAnd := by
  refine ⟨writesBinary_always_of_alu (m := .and) (fun _ _ _ => rfl) rfl rfl fun va vb r h i _ => ?_,
    checksBinary_of_regOperands fun _ _ => rfl, encodedBinary_of_encode fun _ _ => rfl⟩
  rw [aluAnd_value h, BitVec.getLsbD_and]

/-- Settles O38: the register holds `va ||| vb`, read bit by bit. -/
theorem orWritesTheBitwiseOr : Obligations.OrWritesTheBitwiseOr := by
  refine ⟨writesBinary_always_of_alu (m := .or) (fun _ _ _ => rfl) rfl rfl fun va vb r h i _ => ?_,
    checksBinary_of_regOperands fun _ _ => rfl, encodedBinary_of_encode fun _ _ => rfl⟩
  rw [aluOr_value h, BitVec.getLsbD_or]

/-- Settles O39: the register holds `va ^^^ vb`, read bit by bit. -/
theorem xorWritesTheBitwiseXor : Obligations.XorWritesTheBitwiseXor := by
  refine ⟨writesBinary_always_of_alu (m := .xor) (fun _ _ _ => rfl) rfl rfl fun va vb r h i _ => ?_,
    checksBinary_of_regOperands fun _ _ => rfl, encodedBinary_of_encode fun _ _ => rfl⟩
  rw [aluXor_value h, BitVec.getLsbD_xor]

/-- Settles O41: the amount is not reduced, so 8 or more shifts every bit out. -/
theorem shrShiftsRightByTheWholeAmount : Obligations.ShrShiftsRightByTheWholeAmount := by
  refine ⟨writesBinary_always_of_alu (m := .shr) (fun _ _ _ => rfl) rfl rfl fun va vb r h => ?_,
    checksBinary_of_regOperands fun _ _ => rfl, encodedBinary_of_encode fun _ _ => rfl⟩
  exact ⟨aluShr_value h, fun hn => BitVec.eq_of_toNat_eq ((aluShr_value h).trans (shiftRight_eq_zero hn))⟩

/-- Settles O42: the exact successor, reduced by the register write. -/
theorem incAddsOneMod256 : Obligations.IncAddsOneMod256 :=
  ⟨writesUnary_of_alu (m := .inc) (fun _ _ => rfl) rfl rfl fun _ _ => aluInc_value,
    checksUnary_of_regOperands fun _ => rfl, encodedUnary_of_encode fun _ => rfl⟩

/-- Settles O43: the rule's value is the operation's own; R7 is a register like the others. -/
theorem decSubtractsOneMod256 : Obligations.DecSubtractsOneMod256 :=
  ⟨writesUnary_of_alu (m := .dec) (fun _ _ => rfl) rfl rfl fun _ _ h => h,
    checksUnary_of_regOperands fun _ => rfl, encodedUnary_of_encode fun _ => rfl⟩

/-- Settles O44: `255 - va` is the complement of the byte, and both clauses are read off it. -/
theorem notComplementsEveryBit : Obligations.NotComplementsEveryBit := by
  refine ⟨writesUnary_of_alu (m := .not) (fun _ _ => rfl) rfl rfl fun va r h => ?_,
    checksUnary_of_regOperands fun _ => rfl, encodedUnary_of_encode fun _ => rfl⟩
  rw [aluNot_value h]
  exact ⟨BitVec.toNat_not, fun i hi => by simp [hi]⟩

end Sys2Proof.Machine
end

section
/-! PROOF. LDI and PRN (42_control_io.md R131, R132): what each leaves when its register operand is good, and the step
that runs it, from the advance past as many bytes as the decoded instruction has. -/

namespace Sys2Proof.Machine

/-! ### The step that runs a decoded instruction -/

/-- The opcode byte at the pc counts the operands of the instruction that the decoder reads there (30_encoding.md
R62). -/
theorem operandCountOf_of_decode {s : State} {i : Instr} {rest : List Byte} (h : decode s.bytesAtPc = .ok i rest) :
    operandCountOf (s.mem.read s.pc.toNat) = i.operands.length := by
  obtain ⟨bytes, hbytes, -⟩ := bytesAtPc_eq_cons s
  obtain ⟨hknown, -⟩ := decode_cons_eq_ok (hbytes ▸ h)
  obtain ⟨hn, hf⟩ := fetchOperands_of_decode h
  obtain ⟨j, hj, hc, -⟩ := fetchOperands_instr hknown hn
  obtain rfl : i = j := Fetched.instr.inj (hf.symm.trans hj)
  rw [← operandCountOf_mnemonic, hc, fetchOpcode_ir]

section
variable {s u : State} {i : Instr} {rest : List Byte} (henabled : Enabled s)
  (hdec : decode s.bytesAtPc = .ok i rest) (he : exec i (atExecute s) = .next u) (hrun : u.runState = .running)
include henabled hdec he hrun

/-- The step of an instruction that leaves the engine Running and does not end at 255 moves the pc past it
(40_execution_loop.md R87). -/
theorem step_of_decode_of_le (hle : s.pc.toNat + i.operands.length + 1 ≤ 255) :
    step s = .next { u with pc := BitVec.ofNat 8 (s.pc.toNat + i.operands.length + 1) } := by
  obtain ⟨-, hadv, -⟩ := advanceFollowsTheInstruction s u i rest henabled hdec he
  rw [operandCountOf_of_decode hdec] at hadv
  exact hadv hrun hle

/-- The step of an instruction that leaves the engine Running and ends at 255 faults at the advance, the next pc being
256 (40_execution_loop.md R88). -/
theorem step_of_decode_of_end (hend : s.pc.toNat + i.operands.length = 255) :
    step s = .next (FaultedFrom u .addressOutOfBounds 256) := by
  obtain ⟨-, -, hadv⟩ := advanceFollowsTheInstruction s u i rest henabled hdec he
  rw [operandCountOf_of_decode hdec, hend] at hadv
  exact (hadv hrun (by decide)).2

end

/-! ### LDI -/

/-- The value LDI writes reads back as the immediate, since an immediate is a byte. -/
theorem reg_setReg_immOperand (s : State) (r : Fin 8) (imm : Byte) : (s.setReg r (immOperand imm)).reg r = imm :=
  (reg_setReg_same s r _).trans (ofInt_toNat imm)

/-- Settles O48: LDI is one register write, and its three bytes are what the advance passes. -/
theorem ldiLoadsTheImmediate : Obligations.LdiLoadsTheImmediate := by
  refine ⟨fun s ra imm ha => ?_, fun s ra imm ha => ?_, encodedBinary_of_encode fun _ _ => rfl, ?_⟩
  · exact ⟨_, execLdi_of_lt s imm ha, reg_setReg_immOperand s _ imm, onlyRegister_setReg s _ _⟩
  · exact exec_of_firstBad (firstBad_unary rfl ha) s
  · intro s ra imm rest ha henabled hdec hpc
    have hstep := step_of_decode_of_le henabled hdec (execLdi_of_lt (atExecute s) imm ha) henabled.1 hpc
    obtain ⟨hregs, hmem, -⟩ := onlyRegister_setReg (atExecute s) ⟨ra.toNat, ha⟩ (immOperand imm)
    exact ⟨_, hstep, reg_setReg_immOperand (atExecute s) _ imm, Nat.mod_eq_of_lt (Nat.lt_succ_of_le hpc),
      hregs, hmem⟩

/-! ### PRN -/

/-- Settles O49: PRN is one event, and at 254 its two bytes end at 255, so the advance faults after the event. -/
theorem prnSendsTheRegisterToTheReporter : Obligations.PrnSendsTheRegisterToTheReporter := by
  refine ⟨fun s ra ha => execPrn_of_lt s ha, checksUnary_of_regOperands fun _ => rfl,
    encodedUnary_of_encode fun _ => rfl, ?_⟩
  intro s ra rest ha henabled hdec hpc
  have hend : s.pc.toNat + (Instr.prn ra).operands.length = 255 := by rw [hpc]; rfl
  exact step_of_decode_of_end henabled hdec (execPrn_of_lt (atExecute s) ha) henabled.1 hend

end Sys2Proof.Machine
end

section
/-! PROOF. PUSH and POP (43_stack.md R140, R141): what a register reads as after PUSH's decrement of SP and after POP's
load and increment; which exit is taken is already said by `execPush_of_zero`, `execPop_of_empty` and their
complements. -/

namespace Sys2Proof.Machine

/-! ### PUSH -/

/-- What PUSH stores: the register read after the decrement, so that for R7 it is the new SP. -/
theorem reg_spDown_toNat (s : State) (hsp : s.sp ≠ 0) (r : Fin 8) :
    (s.spDown.reg r).toNat = if r.val = 7 then s.sp.toNat - 1 else (s.reg r).toNat := by
  by_cases hr : r.val = 7
  · obtain rfl : r = 7 := Fin.ext hr
    exact sp_spDown s hsp
  · rw [if_neg hr, reg_spDown_other s (Fin.ne_of_val_ne hr)]

/-- Settles O50: past both checks PUSH is one decrement of SP and one memory write; at SP = 0 it only raises. -/
theorem pushStoresBelowTheStackPointer : Obligations.PushStoresBelowTheStackPointer := by
  refine ⟨fun s ra ha hsp => ?_, fun s ra ha hsp => ?_, checksUnary_of_regOperands fun _ => rfl,
    encodedUnary_of_encode fun _ => rfl⟩
  · refine ⟨_, execPush_of_ne_zero s ha hsp, pushAddress_eq s hsp, ?_,
      fun a hne => Memory.read_write_other s.mem _ hne, sp_spDown s hsp,
      fun r hr => reg_spDown_other s (List.ne_of_not_mem_cons hr), ⟨rfl, rfl, rfl⟩, ⟨rfl, rfl, rfl⟩, rfl⟩
    rw [Memory.read_write_self, reg_spDown_toNat s hsp]
  · exact (execPush_of_zero s ha hsp).trans (by rw [raise_eq, hsp]; rfl)

/-! ### POP -/

section
variable (s : State) {r : Fin 8} (v : Byte)

/-- The increment does not touch what POP has loaded into a register other than SP. -/
theorem reg_spUp_setReg (hr : r ≠ 7) : (s.setReg r (v.toNat : Int)).spUp.reg r = v := by
  rw [reg_spUp_other _ hr, reg_setReg_same, ofInt_toNat]

/-- With another register loaded, SP moves up from where it was. -/
theorem sp_spUp_setReg_other (hr : r ≠ 7) :
    (s.setReg r (v.toNat : Int)).spUp.sp.toNat = (s.sp.toNat + 1) % 256 := by
  rw [sp_spUp, sp_setReg_other s _ hr]

/-- POP R7 loads SP, so that the increment starts from the byte loaded. -/
theorem sp_spUp_setReg_sp : (s.setReg 7 (v.toNat : Int)).spUp.sp.toNat = (v.toNat + 1) % 256 := by
  rw [sp_spUp, sp_eq_reg, reg_setReg_same, ofInt_toNat]

/-- POP writes no register but its operand's and SP. -/
theorem sameRegsBut_spUp_setReg (w : Int) : SameRegsBut [r, 7] s (s.setReg r w).spUp := by
  intro q hq
  obtain ⟨hqr, hq7⟩ : q ≠ r ∧ q ≠ 7 := by simpa using hq
  rw [reg_spUp_other _ hq7, reg_setReg_other s w hqr]

end

/-- Settles O51: past both checks POP is a register write and then one increment of SP, which the operand R7 makes a
second write to the same register; at SP = 0xF4 it only raises. -/
theorem popLoadsTheTopOfTheStack : Obligations.PopLoadsTheTopOfTheStack := by
  refine ⟨fun s ra ha hsp => ?_, fun s ra ha hsp => ?_, checksUnary_of_regOperands fun _ => rfl,
    encodedUnary_of_encode fun _ => rfl⟩
  · refine ⟨_, execPop_of_ne_empty s ha hsp, fun hra => ?other, fun hra => ?sp, sameRegsBut_spUp_setReg s _,
      fun _ => rfl, ⟨rfl, rfl, rfl⟩, ⟨rfl, rfl, rfl⟩, rfl⟩
    case other =>
      have hr : (⟨ra.toNat, ha⟩ : Fin 8) ≠ 7 := Fin.ne_of_val_ne hra
      exact ⟨reg_spUp_setReg s _ hr, sp_spUp_setReg_other s _ hr⟩
    case sp =>
      have hr : (⟨ra.toNat, ha⟩ : Fin 8) = 7 := Fin.ext hra
      rw [hr, sp_spUp_setReg_sp]
  · exact (execPop_of_empty s ha hsp).trans (by rw [raise_eq, hsp]; rfl)

end Sys2Proof.Machine
end

section
/-! PROOF. Precise faults (60_exceptions.md R157): an instruction that ends the run has written no register and no
byte of memory, so only the advance can fault over an instruction's writes. -/

namespace Sys2Proof.Machine

/-- An instruction that leaves Running writes no register and no memory. -/
theorem ExecOutcome.regs_mem_of_not_running {i : Instr} {s t : State} (h : ExecOutcome i s t)
    (hs : s.runState = .running) (ht : t.runState ≠ .running) : t.regs = s.regs ∧ SameMemory s t := by
  cases h with
  | halted | badRegister | divisionByZero | stackUnderflow => exact ⟨rfl, fun _ => rfl⟩
  | wrote | printed | pushed | popped => exact absurd hs ht

/-- Settles O19: the exits of a step one by one. The faults of the fetch come before any write; an executed
instruction has itself ended the run, or the advance faults over the state it left. -/
theorem faultsArePreciseExceptAtTheAdvance : Obligations.FaultsArePreciseExceptAtTheAdvance := by
  intro s t k hstep ht hk
  obtain ⟨hs, hout⟩ := step_outcome hstep
  cases hout with
  | stopped | unknownOpcode | outOfBounds => exact ⟨rfl, .inl ⟨rfl, fun _ => rfl⟩⟩
  | executed _ i u hn _ hc ho he hu =>
    obtain ⟨hpc, hir, -⟩ : u.pc = s.pc ∧ u.ir = s.mem.read s.pc.toNat ∧ u.hostStop = s.hostStop.tail :=
      hu.sameSequencing
    rcases advance_cases u with ⟨hrun, hadv⟩ | ⟨hrun, hend, hadv⟩ | ⟨hrun, -, hadv⟩ <;> rw [hadv] at ht hk ⊢
    · exact ⟨hpc, .inl (hu.regs_mem_of_not_running hs hrun)⟩
    · rw [hpc, hir] at hend ⊢
      have hkind : k = .addressOutOfBounds := (Option.some.inj hk).symm
      have hdec := decode_bytesAtPc (s := s.hostStopAsked) hn hc ho
      exact ⟨hpc, .inr ⟨hkind, i, _, u, hdec, he, hrun, hend, rfl⟩⟩
    · exact absurd hrun ht

end Sys2Proof.Machine
end

section
/-! PROOF. The decoder answers an instruction only on bytes that begin with its encoding (30_encoding.md R71), and the
fetch of a step gives what the decoder gives at the pc (40_execution_loop.md R82 to R84). -/

namespace Sys2Proof

theorem decode_cons_of_length_lt {op : Byte} {bytes : List Byte} (hknown : dispatch op ≠ none)
    (hlen : bytes.length < operandCountOf op) : decode (op :: bytes) = .truncated (bytes.length + 1) := by
  obtain ⟨d, hd⟩ := Option.ne_none_iff_exists'.mp hknown
  simp [decode, hd, Nat.not_le.mpr hlen]

/-- Bytes that decode to an instruction are its encoding and what is left. -/
theorem eq_encode_append_of_decode {bytes rest : List Byte} {i : Instr} (h : decode bytes = .ok i rest) :
    bytes = encode i ++ rest := by
  cases bytes with
  | nil => cases h
  | cons op bytes =>
    obtain ⟨hknown, hlen⟩ := Machine.decode_cons_eq_ok h
    obtain ⟨d, hd⟩ := Option.ne_none_iff_exists'.mp hknown
    simp only [decode, hd, if_pos hlen] at h
    cases hbuild : buildInstr d.mnemonic (bytes.take (operandCountOf op)) with
    | none => simp [hbuild] at h
    | some j =>
      obtain ⟨hm, ho⟩ := buildInstr_eq_some hbuild
      obtain ⟨rfl, rfl⟩ : j = i ∧ bytes.drop (operandCountOf op) = rest := by simpa [hbuild] using h
      rw [encode, hm, ho, ← dispatch_eq_some hd, List.cons_append, List.take_append_drop]

/-- Settles O7: the decoder takes an opcode byte and its operands off the front, and reads back what the encoder
writes. -/
theorem decodeAnswersExactlyOnEncodings : Obligations.DecodeAnswersExactlyOnEncodings := by
  intro bytes i rest
  constructor
  · exact eq_encode_append_of_decode
  · rintro rfl
    exact decode_encode_append i rest

/-- Settles O9: the three answers of the fetch one by one. The bytes at the pc end at 255, so a truncated instruction
lacks its byte at 256. -/
theorem fetchAgreesWithTheDecoderAtThePc : Obligations.FetchAgreesWithTheDecoderAtThePc := by
  intro s
  obtain ⟨bytes, hbytes, hlen⟩ := Machine.bytesAtPc_eq_cons s
  have hpc := s.pc.isLt
  rcases Machine.fetchOperands_cases s.fetchOpcode with ⟨hd, hf⟩ | ⟨hd, hn, hf⟩ | ⟨hd, hn, i, hf, hc, ho⟩
  · rw [hf, hbytes, decode_cons_of_dispatch_eq_none hd]
  · rw [Machine.fetchOpcode_pc] at hn
    rw [hf, hbytes, decode_cons_of_length_lt hd (by omega)]
    exact congrArg Machine.Fetched.outOfBounds (by omega)
  · rw [hf, Machine.decode_bytesAtPc (s := s) hn hc ho]

end Sys2Proof
end

section
/-! PROOF. The memory and register primitives (20_memory.md R40, R41; 10_state.md R22). -/

namespace Sys2Proof.Machine

/-- Settles O27: inside memory a write is read back by `Memory.read_write_self`, and outside neither access looks at
memory. -/
theorem memoryAccessesAreBytewiseAndBounded : Obligations.MemoryAccessesAreBytewiseAndBounded := by
  intro s a v
  constructor
  · intro ha
    have hlt : a < Config.memSize := Nat.lt_succ_of_le ha
    refine ⟨memRead_of_lt s hlt, _, memWrite_of_lt s v hlt, ?_, fun b hb => ?_, rfl⟩
    · rw [memRead_of_lt _ hlt, Memory.read_write_self]
    · simp only [State.memRead, Memory.read_write_other s.mem v hb]
  · intro ha
    exact ⟨memRead_of_ge s ha, if_neg (Nat.not_lt.mpr ha), rfl⟩

/-- Settles O28: the register reads back the reduced value, and the write is of this register alone. -/
theorem registerWritesAreTakenMod256 : Obligations.RegisterWritesAreTakenMod256 :=
  fun s r v => ⟨reg_setReg_toNat s r v, onlyRegister_setReg s r v⟩

end Sys2Proof.Machine
end

section
/-! PROOF. Two laws of the ALU that stand beside its table: a shift left by the whole amount (41_alu.md R109), and
quotient and remainder together (41_alu.md R114). -/

namespace Sys2Proof.Machine

theorem aluShl_value {va vb r : Byte} (h : (r.toNat : Int) = aluShl va vb % 256) :
    r.toNat = va.toNat * 2 ^ vb.toNat % 256 := by
  unfold aluShl at h
  exact_mod_cast h

/-- A byte shifted left by 8 or more is a multiple of 256. -/
theorem shiftLeft_mod_eq_zero {va vb : Byte} (hn : 8 ≤ vb.toNat) : va.toNat * 2 ^ vb.toNat % 256 = 0 :=
  Nat.mod_eq_zero_of_dvd (Dvd.dvd.mul_left (pow_dvd_pow 2 hn) va.toNat)

/-- Settles O40: the amount is not reduced, so 8 or more leaves a multiple of 256, which the write reduces to 0. -/
theorem shlShiftsLeftByTheWholeAmount : Obligations.ShlShiftsLeftByTheWholeAmount := by
  refine ⟨writesBinary_always_of_alu (m := .shl) (fun _ _ _ => rfl) rfl rfl fun va vb r h => ?_,
    checksBinary_of_regOperands fun _ _ => rfl, encodedBinary_of_encode fun _ _ => rfl⟩
  exact ⟨aluShl_value h, fun hn => BitVec.eq_of_toNat_eq ((aluShl_value h).trans (shiftLeft_mod_eq_zero hn))⟩

/-- Settles O45: what DIV and MOD write are the quotient and the remainder of the natural numbers. -/
theorem quotientAndRemainderRebuildTheDividend : Obligations.QuotientAndRemainderRebuildTheDividend := by
  intro s ra rb ha hb hne
  obtain ⟨t, hdiv, hq, -⟩ := divWritesTheQuotientAndHaltsOnZero.1 s ra rb ha hb hne
  obtain ⟨u, hmod, hr, -⟩ := modWritesTheRemainderAndHaltsOnZero.1 s ra rb ha hb hne
  rw [← Nat.mod_eq_sub_mul_div] at hr
  refine ⟨t, u, hdiv, hmod, ?_, ?_⟩
  · rw [hq, hr, Nat.div_add_mod]
  · rw [hr]
    exact Nat.mod_lt _ (toNat_pos_of_ne_zero hne)

end Sys2Proof.Machine
end

section
/-! PROOF. Where a step leaves the pc (40_execution_loop.md R86 to R88): an instruction does not write it, so it moves
in the advance, and only while the engine goes on. -/

namespace Sys2Proof.Machine

/-- Settles O31: everything an instruction can do is a next state, and none of it is sequencing. -/
theorem everyInstructionExecutesWithoutWritingThePc : Obligations.EveryInstructionExecutesWithoutWritingThePc := by
  intro i s
  obtain ⟨t, he, hout⟩ := exec_cases i s
  exact ⟨t, he, hout.sameSequencing⟩

/-- The pc after a step, whatever HostStop answers: past the instruction when the engine goes on, and otherwise where
it was. -/
theorem StepOutcome.pc_cases {stop : Bool} {s t : State} (h : StepOutcome stop s t) :
    (t.runState = .running ∧
        t.pc.toNat = s.pc.toNat + operandCountOf (s.mem.read s.pc.toNat) + 1) ∨
      (t.runState ≠ .running ∧ t.pc = s.pc) := by
  cases h with
  | stopped | unknownOpcode | outOfBounds => exact .inr ⟨nofun, rfl⟩
  | executed _ i u _ _ _ _ _ hu =>
    obtain ⟨hpc, hir, -⟩ : u.pc = s.pc ∧ u.ir = s.mem.read s.pc.toNat ∧ u.hostStop = s.hostStop :=
      hu.sameSequencing
    rcases advance_cases u with ⟨hrun, hadv⟩ | ⟨-, -, hadv⟩ | ⟨hrun, hend, hadv⟩ <;> rw [hadv]
    · exact .inr ⟨hrun, hpc⟩
    · exact .inr ⟨nofun, hpc⟩
    · rw [hpc, hir] at hend ⊢
      exact .inl ⟨hrun, Nat.mod_eq_of_lt (Nat.lt_succ_of_le hend)⟩

/-- Settles O13: the Running case of `StepOutcome.pc_cases`. -/
theorem everyCompletedStepAdvancesThePc : Obligations.EveryCompletedStepAdvancesThePc := by
  intro s t hstep ht
  obtain ⟨-, hpc⟩ | ⟨hend, -⟩ := (step_outcome hstep).2.pc_cases
  · exact hpc
  · exact absurd ht hend

/-- Settles O14: the other case of `StepOutcome.pc_cases`. -/
theorem everyTerminalStepLeavesThePc : Obligations.EveryTerminalStepLeavesThePc := by
  intro s t hstep ht
  obtain ⟨hrun, -⟩ | ⟨-, hpc⟩ := (step_outcome hstep).2.pc_cases
  · exact absurd hrun ht
  · exact hpc

/-! ### The whole step -/

/-- Settles O11: the fetch answers what the decoder reads at the pc, and the instruction answers a next state. -/
theorem stepExecutesTheDecodedInstruction : Obligations.StepExecutesTheDecodedInstruction := by
  intro s i rest henabled hdec
  obtain ⟨-, hf⟩ := fetchOperands_of_decode (s := s.hostStopAsked) hdec
  obtain ⟨u, he, -⟩ := exec_cases i (atExecute s)
  rw [step_of_fetch_instr henabled hf he, he, onNext]

/-- Settles O17: a Running engine whose host answers true takes the exit before the fetch. -/
theorem hostStopEndsTheRunBeforeTheFetch : Obligations.HostStopEndsTheRunBeforeTheFetch := by
  intro s hrun hstop
  rw [step_of_running hrun, hstop]
  rfl

/-- Settles O47: HLT has no operand to fetch, so the decoder reads it at every pc, and the advance does nothing after
it. -/
theorem hltHaltsAndWritesNothingElse : Obligations.HltHaltsAndWritesNothingElse := by
  refine ⟨fun _ => rfl, decode_encode_append .hlt, fun s henabled hop => ?_⟩
  obtain ⟨bytes, hbytes, -⟩ := bytesAtPc_eq_cons s
  rw [fetchOpcode_ir, hop] at hbytes
  have hdec : decode s.bytesAtPc = .ok .hlt bytes := hbytes ▸ decode_encode_append .hlt bytes
  rw [stepExecutesTheDecodedInstruction s .hlt bytes henabled hdec]
  rfl

/-! ### Memory -/

/-- An instruction other than PUSH writes no memory, and PUSH writes only at its own address. -/
theorem ExecOutcome.read_ne {i : Instr} {s t : State} {a : Nat} (h : ExecOutcome i s t)
    (hne : t.mem.read a ≠ s.mem.read a) : i.mnemonic = .push ∧ s.sp ≠ 0 ∧ a = s.pushAddress := by
  cases h with
  | halted | badRegister | divisionByZero | stackUnderflow | wrote | printed | popped => exact absurd rfl hne
  | pushed _ _ hi hsp =>
    refine ⟨by rw [hi]; rfl, hsp, ?_⟩
    by_contra ha
    exact hne (Memory.read_write_other s.mem _ ha)

@[simp] theorem advance_mem (s : State) : s.advance.mem = s.mem := by
  rcases advance_cases s with ⟨-, hadv⟩ | ⟨-, -, hadv⟩ | ⟨-, -, hadv⟩ <;> rw [hadv]
  rfl

/-- Settles O21: only an executed instruction touches memory, and the opcode byte at the pc is its own. -/
theorem onlyPushChangesMemory : Obligations.OnlyPushChangesMemory := by
  intro s t a hstep hne
  obtain ⟨-, hout⟩ := step_outcome hstep
  cases hout with
  | stopped | unknownOpcode | outOfBounds => exact absurd rfl hne
  | executed _ i u _ _ hc _ _ hu =>
    rw [advance_mem] at hne
    obtain ⟨hpush, hsp, ha⟩ : i.mnemonic = .push ∧ s.sp ≠ 0 ∧ a = s.pushAddress := hu.read_ne hne
    rw [hpush] at hc
    exact ⟨hc.symm, hsp, ha.trans (pushAddress_eq s hsp)⟩

/-- Settles O22: the pc moves to pc + 2, which is the address PUSH stores to when SP is pc + 3, and the opcode fetch
reads memory there. -/
theorem pushedByteIsFetchedByTheNextStep : Obligations.PushedByteIsFetchedByTheNextStep := by
  intro s t ra rest ha henabled hdec hsp hstep
  have hpc : s.pc.toNat + 2 ≤ 255 := by have := s.sp.isLt; omega
  have hsp0 : (atExecute s).sp ≠ 0 := fun h0 => by
    have hzero : s.sp.toNat = 0 := congrArg BitVec.toNat h0
    omega
  have hnext := step_of_decode_of_le henabled hdec (execPush_of_ne_zero (atExecute s) ha hsp0) henabled.1 hpc
  obtain rfl := Host.Outcome.next.inj (hstep.symm.trans hnext)
  have haddr : (BitVec.ofNat 8 (s.pc.toNat + 2)).toNat = (atExecute s).pushAddress := by
    have hmod : (BitVec.ofNat 8 (s.pc.toNat + 2)).toNat = s.pc.toNat + 2 := Nat.mod_eq_of_lt (Nat.lt_succ_of_le hpc)
    have hpush : (atExecute s).pushAddress = s.sp.toNat - 1 := pushAddress_eq _ hsp0
    omega
  refine ⟨henabled.1, ?_⟩
  show (Memory.read (Memory.write _ _ _) (BitVec.ofNat 8 (s.pc.toNat + 2)).toNat).toNat = _
  rw [haddr, Memory.read_write_self]
  exact reg_spDown_toNat (atExecute s) hsp0 _

end Sys2Proof.Machine
end

section
/-! PROOF. Sequences of PUSH and POP (43_stack.md R142, R143). -/

namespace Sys2Proof.Machine

theorem execAll_cons_of_next {i : Instr} {is : List Instr} {s t : State} (h : exec i s = .next t) :
    execAll (i :: is) s = execAll is t := by
  rw [execAll, h]

/-- Writing to a register the value it holds changes nothing. -/
theorem setReg_reg_self (s : State) (r : Fin 8) : s.setReg r ((s.reg r).toNat : Int) = s := by
  have hregs : (s.setReg r ((s.reg r).toNat : Int)).regs = s.regs := regs_ext fun q => by
    rw [reg_setReg, ofInt_toNat]
    split
    · next h => rw [h]
    · rfl
  exact congrArg (fun regs => { s with regs := regs }) hregs

/-- POP's increment undoes PUSH's decrement. -/
theorem reg_spUp_spDown (s : State) (hsp : s.sp ≠ 0) (q : Fin 8) : s.spDown.spUp.reg q = s.reg q := by
  by_cases hq : q = 7
  · subst hq
    have h0 := toNat_pos_of_ne_zero hsp
    have hlt := s.sp.isLt
    apply BitVec.eq_of_toNat_eq
    rw [← sp_eq_reg, ← sp_eq_reg, sp_spUp, sp_spDown s hsp]
    omega
  · rw [reg_spUp_other _ hq, reg_spDown_other s hq]

/-- The state PUSH leaves when it neither faults nor underflows (43_stack.md R140). -/
def State.pushed (s : State) (r : Fin 8) : State :=
  { s.spDown with mem := s.mem.write s.pushAddress (s.spDown.reg r) }

theorem exec_push_eq_pushed (s : State) {a : Byte} (ha : a.toNat < 8) (hsp : s.sp ≠ 0) :
    exec (.push a) s = .next (s.pushed ⟨a.toNat, ha⟩) := execPush_of_ne_zero s ha hsp

/-- The byte at the top of the stack is the register just pushed. -/
theorem read_sp_pushed (s : State) (r : Fin 8) :
    (s.pushed r).mem.read (s.pushed r).sp.toNat = (s.pushed r).reg r := Memory.read_write_self s.mem _ _

/-- POP of the register just pushed writes the byte it still holds, so that only the increment of SP is left. -/
theorem exec_pop_pushed (s : State) {a : Byte} (ha : a.toNat < 8) (hsp : s.spDown.sp ≠ Config.spReset) :
    exec (.pop a) (s.pushed ⟨a.toNat, ha⟩) = .next (s.pushed ⟨a.toNat, ha⟩).spUp := by
  have hpop := execPop_of_ne_empty (s.pushed ⟨a.toNat, ha⟩) ha hsp
  rwa [read_sp_pushed, setReg_reg_self] at hpop

/-- PUSH brings SP to its reset value from 0xF5 alone. -/
theorem sp_spDown_ne_spReset {s : State} (hne : s.sp ≠ 0xF5) (hsp : s.sp ≠ 0) : s.spDown.sp ≠ Config.spReset := by
  intro h
  have hdown : 244 = s.sp.toNat - 1 := (congrArg BitVec.toNat h).symm.trans (sp_spDown s hsp)
  have hF5 : s.sp.toNat = 245 := by omega
  exact hne (BitVec.eq_of_toNat_eq hF5)

/-- Settles O52: after PUSH and POP, SP has been decremented and incremented and no other register has changed. -/
theorem popAfterPushRestoresTheRegisters : Obligations.PopAfterPushRestoresTheRegisters := by
  intro s ra ha hsp hne
  refine ⟨(s.pushed ⟨ra.toNat, ha⟩).spUp, ?_, regs_ext (reg_spUp_spDown s hsp),
    fun a hne => Memory.read_write_other s.mem _ hne⟩
  rw [execAll_cons_of_next (exec_push_eq_pushed s ha hsp),
    execAll_cons_of_next (exec_pop_pushed s ha (sp_spDown_ne_spReset hne hsp)), execAll]

/-- While SP counts `n` free bytes, `n` PUSHes complete. -/
theorem execAll_push_of_le {ra : Byte} (ha : ra.toNat < 8) : ∀ (n : Nat) (s : State), n ≤ s.sp.toNat →
    ∃ t, execAll (List.replicate n (.push ra)) s = .next t ∧ t.sp.toNat = s.sp.toNat - n ∧ SameStatus s t := by
  intro n
  induction n with
  | zero => exact fun s _ => ⟨s, rfl, rfl, rfl, rfl, rfl⟩
  | succ n ih =>
    intro s hn
    have hsp : s.sp ≠ 0 := fun h0 => by simp [h0] at hn
    obtain ⟨u, hpush, -, -, -, hdown, -, hstatus, -⟩ := pushStoresBelowTheStackPointer.1 s ra ha hsp
    obtain ⟨t, hall, hspt, hrun, hcause, hinfo⟩ := ih u (by omega)
    obtain ⟨hrunu, hcauseu, hinfou⟩ := hstatus
    exact ⟨t, (execAll_cons_of_next hpush).trans hall, by omega,
      hrun.trans hrunu, hcause.trans hcauseu, hinfo.trans hinfou⟩

/-- One PUSH more than SP has free bytes raises StackUnderflow. -/
theorem execAll_push_underflow {ra : Byte} (ha : ra.toNat < 8) : ∀ (n : Nat) (s : State), s.sp.toNat = n →
    ∃ t, execAll (List.replicate (n + 1) (.push ra)) s = .next t ∧ t.cause = some .stackUnderflow ∧
      t.runState = .faulted := by
  intro n
  induction n with
  | zero =>
    intro s hn
    have hsp : s.sp = 0 := BitVec.eq_of_toNat_eq hn
    exact ⟨_, execAll_cons_of_next (execPush_of_zero s ha hsp), rfl, rfl⟩
  | succ n ih =>
    intro s hn
    have hsp : s.sp ≠ 0 := fun h0 => by simp [h0] at hn
    obtain ⟨u, hpush, -, -, -, hdown, -⟩ := pushStoresBelowTheStackPointer.1 s ra ha hsp
    obtain ⟨t, hall, hfault⟩ := ih u (by omega)
    exact ⟨t, (execAll_cons_of_next hpush).trans hall, hfault⟩

/-- Settles O53: SP is the number of PUSHes that still fit. -/
theorem theStackHolds244Elements : Obligations.TheStackHolds244Elements := by
  intro s ra ha hsp
  have hcount : s.sp.toNat = 244 := congrArg BitVec.toNat hsp
  refine ⟨fun n hn => ?_, execAll_push_underflow ha 244 s hcount⟩
  rw [← hcount] at hn ⊢
  exact execAll_push_of_le ha n s hn

end Sys2Proof.Machine
end

section
/-! PROOF. The invariant of a run. A Running state that meets it is as clean as the reset state: canonical memory, no
fault recorded, no Diag sent. What an instruction, the fetch or the advance leaves of such a state is one of four
things: another such state, a fault with a legal value, a division by 0, or a run that ended without a fault. -/

namespace Sys2Proof.Machine

/-- A Running state that meets the invariant. -/
structure Clean (s : State) : Prop where
  memory : s.mem.wf
  running : s.runState = .running
  cause : s.cause = none
  info : s.info = 0
  noDiag : NoDiag s.events

theorem RunInv.clean {s : State} (h : RunInv s) (hrun : s.runState = .running) : Clean s := by
  obtain ⟨hmem, hstatus, hdiag⟩ := h
  rw [StatusLegal, hrun] at hstatus
  obtain ⟨hcause, hinfo⟩ := hstatus
  rw [DiagLegal, hcause] at hdiag
  exact ⟨hmem, hrun, hcause, hinfo, hdiag⟩

/-- A state with no fault recorded meets the invariant in every run state but Faulted. -/
theorem runInv_of_no_fault {s : State} (hmem : s.mem.wf) (hrun : s.runState ≠ .faulted) (hcause : s.cause = none)
    (hinfo : s.info = 0) (hdiag : NoDiag s.events) : RunInv s := by
  refine ⟨hmem, ?_, by rwa [DiagLegal, hcause]⟩
  rw [StatusLegal]
  cases hs : s.runState with
  | running | stopped => exact ⟨hcause, hinfo⟩
  | halted => exact .inl ⟨hcause, hinfo⟩
  | faulted => exact absurd hs hrun

theorem NoDiag.append_print {es : List Event} (h : NoDiag es) (v : Byte) : NoDiag (es ++ [.print v]) := by
  intro k info hmem
  rcases List.mem_append.mp hmem with hmem | hmem
  · exact h k info hmem
  · cases List.mem_singleton.mp hmem

section
variable {s : State} (h : Clean s)
include h

theorem Clean.runInv : RunInv s :=
  runInv_of_no_fault h.memory (by simp [h.running]) h.cause h.info h.noDiag

theorem Clean.runInv_raise {k : FaultKind} {info : BitVec 9} (hinfo : InfoLegal k info) : RunInv (s.raise k info) :=
  ⟨h.memory, ⟨k, rfl, hinfo⟩, ⟨s.events, rfl, h.noDiag⟩⟩

theorem Clean.runInv_haltDz {info : BitVec 9} (hinfo : info.toNat = 0xA3 ∨ info.toNat = 0xA4) :
    RunInv (s.haltDz info) :=
  ⟨h.memory, .inr ⟨rfl, hinfo⟩, ⟨s.events, rfl, h.noDiag⟩⟩

theorem Clean.fetchOpcode : Clean s.fetchOpcode :=
  ⟨h.memory, h.running, h.cause, h.info, h.noDiag⟩

theorem Clean.hostStopAsked : Clean s.hostStopAsked :=
  ⟨h.memory, h.running, h.cause, h.info, h.noDiag⟩

end

/-! ### The values recorded with a fault (60_exceptions.md R150) -/

theorem infoLegal_unknownOpcode {b : Byte} (hd : dispatch b = none) : InfoLegal .unknownOpcode (zext9 b) := by
  have hback : (zext9 b).setWidth 8 = b := BitVec.setWidth_setWidth_of_le b (by decide)
  exact ⟨by rw [zext9_toNat]; exact b.isLt, by rwa [hback]⟩

theorem infoLegal_invalidRegister {b : Byte} (hb : 8 ≤ b.toNat) : InfoLegal .invalidRegister (zext9 b) := by
  have := b.isLt
  rw [InfoLegal, zext9_toNat]
  omega

/-! ### The stages of a step -/

/-- The advance of an instruction that ends at 255 at the latest faults at 256 alone. -/
theorem RunInv.advance {u : State} (hu : RunInv u) (hend : u.pc.toNat + operandCountOf u.ir ≤ 255) :
    RunInv u.advance := by
  rcases advance_cases u with ⟨-, hadv⟩ | ⟨hrun, hgt, hadv⟩ | ⟨hrun, -, hadv⟩ <;> rw [hadv]
  · exact hu
  · have h256 : u.pc.toNat + operandCountOf u.ir + 1 = 256 := by omega
    rw [h256]
    exact (hu.clean hrun).runInv_raise (.inl rfl)
  · obtain ⟨hmem, -, hcause, hinfo, hdiag⟩ := hu.clean hrun
    exact Clean.runInv ⟨hmem, hrun, hcause, hinfo, hdiag⟩

section
variable {s : State} (h : Clean s)
include h

/-- What an instruction leaves of a clean state, its opcode byte being in `ir`. -/
theorem ExecOutcome.runInv {i : Instr} {t : State} (ho : ExecOutcome i s t) (hir : i.mnemonic.opcode = s.ir) :
    RunInv t := by
  cases ho with
  | halted => exact runInv_of_no_fault h.memory nofun rfl rfl h.noDiag
  | badRegister b hb => exact h.runInv_raise (infoLegal_invalidRegister (firstBadRegister_ge hb))
  | divisionByZero hi =>
    refine h.runInv_haltDz ?_
    rw [zext9_toNat, ← hir]
    obtain ⟨a, b, rfl⟩ | ⟨a, b, rfl⟩ := hi
    · exact .inl rfl
    · exact .inr rfl
  | stackUnderflow hi =>
    refine h.runInv_raise ?_
    rw [InfoLegal, zext9_toNat]
    obtain ⟨-, hsp⟩ | ⟨-, hsp⟩ := hi
    · exact .inl (congrArg BitVec.toNat hsp)
    · exact .inr (congrArg BitVec.toNat hsp)
  | wrote | popped => exact Clean.runInv ⟨h.memory, h.running, h.cause, h.info, h.noDiag⟩
  | printed => exact Clean.runInv ⟨h.memory, h.running, h.cause, h.info, h.noDiag.append_print _⟩
  | pushed =>
    have hwf := Memory.write_wf h.memory (byte_lt_memSize s.spDown.sp)
    exact Clean.runInv ⟨hwf _, h.running, h.cause, h.info, h.noDiag⟩

/-- A step of a clean state keeps the invariant, whatever HostStop answers. -/
theorem StepOutcome.runInv {stop : Bool} {t : State} (ho : StepOutcome stop s t) : RunInv t := by
  cases ho with
  | stopped => exact runInv_of_no_fault h.memory nofun rfl rfl h.noDiag
  | unknownOpcode _ hd => exact h.fetchOpcode.runInv_raise (infoLegal_unknownOpcode hd)
  | outOfBounds => exact h.fetchOpcode.runInv_raise (.inl rfl)
  | executed _ i u hn _ hc _ _ hu =>
    obtain ⟨hpc, hir, -⟩ := hu.sameSequencing
    refine (hu.runInv h.fetchOpcode hc).advance ?_
    rw [hpc, hir]
    exact hn

end

/-- Settles O5: a state with a next step is Running, so clean, and each exit of the step keeps the invariant. -/
theorem everyStepKeepsTheInvariant : Obligations.EveryStepKeepsTheInvariant := by
  intro s t hinv hstep
  obtain ⟨hrun, hout⟩ := step_outcome hstep
  exact hout.runInv (hinv.clean hrun).hostStopAsked

/-! ### The start of a run -/

/-- The reset state with any canonical memory is clean. -/
theorem clean_reset_withMem {m : Memory} (hm : m.wf) : Clean { State.reset with mem := m } :=
  ⟨hm, rfl, rfl, rfl, fun _ _ => List.not_mem_nil⟩

theorem Memory.wf_nil : Memory.wf [] := ⟨.nil, nofun⟩

/-- Settles O3: the memory of the reset state lists nothing. -/
theorem invariantHoldsAtReset : Obligations.InvariantHoldsAtReset :=
  (clean_reset_withMem Memory.wf_nil).runInv

/-- Settles O4: the Loader answers only for an image that fits, and then memory stays canonical. -/
theorem invariantHoldsAtLaunch : Obligations.InvariantHoldsAtLaunch := by
  intro image s hs
  by_cases hlen : image.length ≤ 256
  · rw [launch_of_le hlen] at hs
    obtain rfl := Option.some.inj hs
    have hfits : 0 + image.length ≤ Config.memSize := (Nat.zero_add _).symm ▸ hlen
    exact (clean_reset_withMem (Memory.load_wf image Memory.wf_nil hfits)).runInv
  · rw [launch_of_gt (Nat.not_le.mp hlen)] at hs
    cases hs

end Sys2Proof.Machine
end

section
/-! PROOF. The engine reads neither what it has sent to the Reporter nor the answers HostStop will give later
(10_state.md R35; 40_execution_loop.md R94, R96), so a step is the same with other events before it and other answers
to come. -/

namespace Sys2Proof.Machine

/-- The same engine with events `pre` before its own in the Reporter's stream, and answers `later` to come. -/
def State.inContext (s : State) (pre : List Event) (later : List Bool) : State :=
  { s with events := pre ++ s.events, hostStop := later }

section
variable (s : State) (pre : List Event) (later : List Bool)

@[simp] theorem inContext_pc : (s.inContext pre later).pc = s.pc := rfl
@[simp] theorem inContext_ir : (s.inContext pre later).ir = s.ir := rfl
@[simp] theorem inContext_runState : (s.inContext pre later).runState = s.runState := rfl
@[simp] theorem sp_inContext : (s.inContext pre later).sp = s.sp := rfl
@[simp] theorem pushAddress_inContext : (s.inContext pre later).pushAddress = s.pushAddress := rfl
@[simp] theorem memRead_inContext (a : Nat) : (s.inContext pre later).memRead a = s.memRead a := rfl

theorem emit_inContext (e : Event) : (s.inContext pre later).emit e = (s.emit e).inContext pre later := by
  simp [State.emit, State.inContext]

theorem raise_inContext (k : FaultKind) (info : BitVec 9) :
    (s.inContext pre later).raise k info = (s.raise k info).inContext pre later :=
  emit_inContext { s with runState := .faulted, cause := some k, info := info } pre later _

theorem haltDz_inContext (info : BitVec 9) :
    (s.inContext pre later).haltDz info = (s.haltDz info).inContext pre later :=
  emit_inContext { s with runState := .halted, cause := some .divisionByZero, info := info } pre later _

theorem withReg_inContext (b : Byte) {go go' : Fin 8 → State} (hgo : ∀ r, go' r = (go r).inContext pre later) :
    (s.inContext pre later).withReg b go' = (s.withReg b go).inContext pre later := by
  by_cases hb : b.toNat < 8
  · rw [withReg_of_lt _ _ hb, withReg_of_lt _ _ hb, hgo]
  · rw [withReg_of_ge _ _ (by omega), withReg_of_ge _ _ (by omega), raise_inContext]

theorem aluApply_inContext (m : Mnemonic) (r : Fin 8) (vb : Byte) :
    (s.inContext pre later).aluApply m r vb = (s.aluApply m r vb).inContext pre later := by
  rw [State.aluApply, State.aluApply]
  cases aluFn m with
  | none => exact raise_inContext s pre later _ _
  | some f =>
    by_cases hz : (dividesBy m && vb == 0) = true
    · simp only [if_pos hz]
      exact haltDz_inContext s pre later _
    · simp only [if_neg hz]
      rfl

theorem aluBinary_inContext (m : Mnemonic) (a b : Byte) :
    (s.inContext pre later).aluBinary m a b = (s.aluBinary m a b).inContext pre later :=
  withReg_inContext s pre later a fun _ => withReg_inContext s pre later b fun _ => aluApply_inContext s pre later m _ _

theorem aluUnary_inContext (m : Mnemonic) (a : Byte) :
    (s.inContext pre later).aluUnary m a = (s.aluUnary m a).inContext pre later :=
  withReg_inContext s pre later a fun _ => aluApply_inContext s pre later m _ _

theorem execPush_inContext (a : Byte) :
    execPush a (s.inContext pre later) = onNext (fun u => u.inContext pre later) (execPush a s) := by
  refine congrArg Host.Outcome.next (withReg_inContext s pre later a fun r => ?_)
  have hp : s.pushAddress < Config.memSize := byte_lt_memSize s.spDown.sp
  rw [sp_inContext, pushAddress_inContext, memWrite_of_lt _ _ hp, memWrite_of_lt _ _ hp]
  by_cases hs : s.sp = 0
  · simp only [if_pos hs]
    exact raise_inContext s pre later _ _
  · simp only [if_neg hs]
    rfl

theorem execPop_inContext (a : Byte) :
    execPop a (s.inContext pre later) = onNext (fun u => u.inContext pre later) (execPop a s) := by
  refine congrArg Host.Outcome.next (withReg_inContext s pre later a fun r => ?_)
  rw [sp_inContext, memRead_inContext, memRead_of_lt s (byte_lt_memSize s.sp)]
  by_cases hs : popEmpty s.sp = true
  · simp only [if_pos hs]
    exact raise_inContext s pre later _ _
  · simp only [if_neg hs]
    rfl

theorem exec_inContext (i : Instr) :
    exec i (s.inContext pre later) = onNext (fun u => u.inContext pre later) (exec i s) := by
  cases i with
  | hlt => rfl
  | ldi a imm => exact congrArg Host.Outcome.next (withReg_inContext s pre later a fun _ => rfl)
  | prn a => exact congrArg Host.Outcome.next (withReg_inContext s pre later a fun r => emit_inContext s pre later _)
  | push a => exact execPush_inContext s pre later a
  | pop a => exact execPop_inContext s pre later a
  | add a b | sub a b | mul a b | div a b | mod a b | and a b | or a b | xor a b | shl a b | shr a b =>
    exact congrArg Host.Outcome.next (aluBinary_inContext s pre later _ a b)
  | inc a | dec a | not a => exact congrArg Host.Outcome.next (aluUnary_inContext s pre later _ a)

theorem advance_inContext : (s.inContext pre later).advance = s.advance.inContext pre later := by
  rw [State.advance, State.advance, inContext_runState, inContext_pc, inContext_ir]
  by_cases hrun : s.runState = .running
  · by_cases hend : 255 < s.pc.toNat + operandCountOf s.ir + 1
    · simp only [if_pos hrun, if_pos hend]
      exact raise_inContext s pre later _ _
    · simp only [if_pos hrun, if_neg hend]
      rfl
  · simp only [if_neg hrun]

theorem readBytes_inContext (n : Nat) : ∀ a, (s.inContext pre later).readBytes a n = s.readBytes a n := by
  induction n with
  | zero => exact fun _ => rfl
  | succ n ih => intro a; rw [State.readBytes, State.readBytes, memRead_inContext, ih]

theorem fetchOperands_inContext : (s.inContext pre later).fetchOperands = s.fetchOperands := by
  rw [State.fetchOperands, State.fetchOperands, inContext_ir, inContext_pc, readBytes_inContext]

/-- With other events before it and other answers to come, a step does the same. -/
theorem stepSampled_inContext (stop : Bool) :
    stepSampled stop (s.inContext pre later) = onNext (fun t => t.inContext pre later) (stepSampled stop s) := by
  cases stop with
  | true => rfl
  | false =>
    have hfetch : (s.inContext pre later).fetchOpcode.fetchOperands = s.fetchOpcode.fetchOperands :=
      fetchOperands_inContext s.fetchOpcode pre later
    simp only [stepSampled, Bool.false_eq_true, if_false, hfetch]
    cases s.fetchOpcode.fetchOperands with
    | unknownOpcode b | outOfBounds a =>
      exact congrArg Host.Outcome.next (raise_inContext s.fetchOpcode pre later _ _)
    | instr i =>
      have hexec : exec i (s.inContext pre later).fetchOpcode = _ := exec_inContext s.fetchOpcode pre later i
      obtain ⟨u, he, -⟩ := exec_cases i s.fetchOpcode
      simp only [hexec, he, onNext, advance_inContext]

/-- A step uses the first of the answers to come, and leaves the others to come. -/
theorem step_inContext (answers : List Bool) (hrun : s.runState = .running) :
    step (s.inContext pre answers) =
      onNext (fun t => t.inContext pre answers.tail) (stepSampled (answers.headD false) s) := by
  rw [← stepSampled_inContext]
  exact step_of_running (s := s.inContext pre answers) hrun

theorem withEvents_eq_inContext (es : List Event) :
    { s with events := es } = { s with events := [] }.inContext es s.hostStop := by
  simp [State.inContext]

end

/-- Settles O20: a stream is a context of the empty stream, and the events of a step from there are the new ones. -/
theorem stepsOnlyAppendToTheReporterStream : Obligations.StepsOnlyAppendToTheReporterStream := by
  intro s t es hstep
  obtain ⟨hrun, -⟩ := step_outcome hstep
  obtain ⟨u, hu, -⟩ := stepSampled_cases s.hostStopNow { s with events := [] }
  have hstream (pre : List Event) : step { s with events := pre } = .next (u.inContext pre s.hostStop.tail) := by
    rw [withEvents_eq_inContext, step_inContext { s with events := [] } pre s.hostStop hrun]
    exact congrArg (onNext _) hu
  obtain rfl := Host.Outcome.next.inj (hstep.symm.trans (hstream s.events))
  exact ⟨u.events, rfl, hstream es⟩

end Sys2Proof.Machine
end

section
/-! PROOF. Runs (40_execution_loop.md R92; 70_reset_and_hazards.md R189): every step that goes on moves the pc by 2 at
least, so a run is over before its 128th step has gone on; and a run keeps what every step keeps. -/

namespace Sys2Proof.Machine

/-! ### One step of a run -/

theorem runFor_of_not_running {s : State} (h : s.runState ≠ .running) (n : Nat) : runFor n s = s := by
  cases n with
  | zero => rfl
  | succ n => rw [runFor, step_of_not_running h]

theorem runFor_succ_of_next {s t : State} (h : step s = .next t) (n : Nat) : runFor (n + 1) s = runFor n t := by
  rw [runFor, h]

section
variable (hostStop : State → Bool) {s t : State}

theorem runUnder_of_not_running (h : s.runState ≠ .running) (n : Nat) : runUnder hostStop n s = s := by
  cases n with
  | zero => rfl
  | succ n => rw [runUnder, if_neg h]

theorem runUnder_succ_of_next (hrun : s.runState = .running) (h : stepSampled (hostStop s) s = .next t) (n : Nat) :
    runUnder hostStop (n + 1) s = runUnder hostStop n t := by
  rw [runUnder, if_pos hrun, h]

end

/-- The list of answers that begins with the predicate's answer at the state and goes on with its answers after it
gives the run under the predicate. -/
theorem exists_answers_runFor_eq (hostStop : State → Bool) (n : Nat) : ∀ s : State, ∃ answers : List Bool,
    runFor n { s with hostStop := answers } = { runUnder hostStop n s with hostStop := [] } := by
  induction n with
  | zero => exact fun s => ⟨[], rfl⟩
  | succ n ih =>
    intro s
    by_cases hrun : s.runState = .running
    · obtain ⟨t, ht, -⟩ := stepSampled_cases (hostStop s) s
      obtain ⟨later, hlater⟩ := ih t
      have hstep : step { s with hostStop := hostStop s :: later } = .next { t with hostStop := later } := by
        have hctx := step_inContext s [] (hostStop s :: later) hrun
        rwa [List.headD_cons, ht] at hctx
      exact ⟨hostStop s :: later, by
        rw [runFor_succ_of_next hstep, runUnder_succ_of_next hostStop hrun ht, hlater]⟩
    · rw [runUnder_of_not_running hostStop hrun]
      exact ⟨[], runFor_of_not_running (s := { s with hostStop := [] }) hrun _⟩

/-- Settles O25: the run under the predicate does not read the model's list, so every predicate has its list of answers,
even one that looks at the model's. -/
theorem hostAnswerListsCoverEveryPredicate : Obligations.HostAnswerListsCoverEveryPredicate :=
  fun hostStop _ n s => exists_answers_runFor_eq hostStop n s

/-! ### The bound -/

/-- An instruction that leaves the engine Running is not HLT. -/
theorem ExecOutcome.ne_hlt {i : Instr} {s t : State} (h : ExecOutcome i s t) (ht : t.runState = .running) :
    i ≠ .hlt := by
  rintro rfl
  cases h with
  | halted | badRegister | divisionByZero | stackUnderflow => cases ht
  | wrote _ _ hi => cases hi
  | printed _ _ hi | pushed _ _ hi | popped _ _ hi => cases hi

/-- Every instruction but HLT has an operand (30_encoding.md R66). -/
theorem operands_length_pos {i : Instr} (h : i ≠ .hlt) : 0 < i.operands.length := by
  cases i with
  | hlt => exact absurd rfl h
  | _ => exact Nat.succ_pos _

theorem running_of_advance {s : State} (h : s.advance.runState = .running) : s.runState = .running := by
  rcases advance_cases s with ⟨-, hadv⟩ | ⟨hrun, -, -⟩ | ⟨hrun, -, -⟩
  · rwa [hadv] at h
  · exact hrun
  · exact hrun

/-- A step that goes on moves the pc by 2 at least, whatever HostStop answers. -/
theorem StepOutcome.pc_add_two_le {stop : Bool} {s t : State} (h : StepOutcome stop s t)
    (ht : t.runState = .running) : s.pc.toNat + 2 ≤ t.pc.toNat := by
  obtain ⟨-, hpc⟩ | ⟨hend, -⟩ := h.pc_cases
  · cases h with
    | stopped | unknownOpcode | outOfBounds => cases ht
    | executed _ i u _ _ hc _ _ hu =>
      have hlen := operands_length_pos (hu.ne_hlt (running_of_advance ht))
      rw [← operandCountOf_mnemonic, hc, fetchOpcode_ir] at hlen
      omega
  · exact absurd ht hend

theorem pc_add_le_runFor (n : Nat) : ∀ s : State, (runFor n s).runState = .running →
    s.pc.toNat + 2 * n ≤ (runFor n s).pc.toNat := by
  induction n with
  | zero => exact fun s _ => le_rfl
  | succ n ih =>
    intro s hend
    by_cases hrun : s.runState = .running
    · obtain ⟨t, ht, hout⟩ := stepSampled_cases s.hostStopNow s.hostStopAsked
      rw [runFor_succ_of_next ((step_of_running hrun).trans ht)] at hend ⊢
      have htrun : t.runState = .running := by
        by_contra hstop
        exact hstop (runFor_of_not_running hstop n ▸ hend)
      have hfirst : s.pc.toNat + 2 ≤ t.pc.toNat := hout.pc_add_two_le htrun
      have hrest := ih t hend
      omega
    · rw [runFor_of_not_running hrun] at hend
      exact absurd hend hrun

/-- Every run ends: after 128 steps that go on, the pc would be above 255 (70_reset_and_hazards.md R189). -/
theorem runFor_ends (s : State) : (runFor 128 s).runState ≠ .running := by
  intro hend
  have hpc := pc_add_le_runFor 128 s hend
  have hlt := (runFor 128 s).pc.isLt
  omega

/-- Settles O23: the run under a predicate ends as the run under its list of answers. -/
theorem everyRunEndsWithin128Steps : Obligations.EveryRunEndsWithin128Steps := by
  intro s
  refine ⟨runFor_ends s, fun hostStop => ?_⟩
  obtain ⟨answers, hrun⟩ := exists_answers_runFor_eq hostStop 128 s
  have hends := runFor_ends { s with hostStop := answers }
  rwa [hrun] at hends

/-! ### The result -/

/-- A run keeps the invariant. -/
theorem RunInv.runFor (n : Nat) : ∀ {s : State}, RunInv s → RunInv (runFor n s) := by
  induction n with
  | zero => exact id
  | succ n ih =>
    intro s hinv
    by_cases hrun : s.runState = .running
    · obtain ⟨t, ht⟩ := (exactlyTheRunningStatesHaveANextStep s).mpr hrun
      rw [runFor_succ_of_next ht]
      exact ih (everyStepKeepsTheInvariant s t hinv ht)
    · rwa [runFor_of_not_running hrun]

/-- The rows of R92's table: a legal status outside Running is one of them, and the result is the row's. -/
theorem StatusLegal.runResult_cases {s : State} (h : StatusLegal s) (hs : s.runState ≠ .running) :
    (s.runState = .halted ∧ s.cause = none ∧ s.runResult = some .completed) ∨
      (s.runState = .halted ∧ s.cause = some .divisionByZero ∧
        s.runResult = some .completedAfterDivisionByZero) ∨
      (∃ k, s.runState = .faulted ∧ s.cause = some k ∧ s.runResult = some (.failed k)) ∨
      (s.runState = .stopped ∧ s.cause = none ∧ s.runResult = some .stoppedByHost) := by
  rw [StatusLegal] at h
  rw [State.runResult]
  cases hrun : s.runState with
  | running => exact absurd hrun hs
  | halted =>
    rw [hrun] at h
    obtain ⟨hcause, -⟩ | ⟨hcause, -⟩ := h <;> simp [hcause]
  | stopped =>
    rw [hrun] at h
    simp [h.1]
  | faulted =>
    rw [hrun] at h
    obtain ⟨k, hcause, hinfo⟩ := h
    rw [hcause]
    cases k with
    | divisionByZero => exact hinfo.elim
    | _ => simp

/-- Settles O24: the run has ended, its last state meets the invariant, and so it is in a row of R92's table. -/
theorem everyRunReturnsATerminalCondition : Obligations.EveryRunReturnsATerminalCondition := by
  intro s hinv
  rcases (hinv.runFor 128).status.runResult_cases (runFor_ends s) with
    ⟨hrun, hcause, hres⟩ | ⟨hrun, hcause, hres⟩ | ⟨k, hrun, hcause, hres⟩ | ⟨hrun, hcause, hres⟩ <;>
  simp [hrun, hcause, hres]

end Sys2Proof.Machine
end

section
/-! PROOF. A table word placed at the pc (log entry 7): the bytes at the pc begin with it, so the decoder reads there
what it reads from the word. -/

namespace Sys2Proof.Machine

theorem decode_of_decodeTableWord {nbits w : Nat} {i : Instr} (h : decodeTableWord nbits w = some i) :
    ∃ rest, decode (wordBytes nbits w) = .ok i rest := by
  unfold decodeTableWord at h
  cases hdec : decode (wordBytes nbits w) with
  | ok j rest => rw [hdec] at h; exact ⟨rest, by rw [Option.some.inj h]⟩
  | unknownOpcode | truncated => rw [hdec] at h; cases h

/-- Bytes after an instruction do not change what the decoder reads. -/
theorem decode_append_of_ok {bytes rest : List Byte} {i : Instr} (h : decode bytes = .ok i rest) (more : List Byte) :
    decode (bytes ++ more) = .ok i (rest ++ more) := by
  rw [eq_encode_append_of_decode h, List.append_assoc]
  exact decode_encode_append i _

section
variable (s : State) {bytes : List Byte} (hlen : s.pc.toNat + bytes.length ≤ 256)
include hlen

theorem mem_placeAtPc : (s.placeAtPc bytes).mem = s.mem.load s.pc.toNat bytes := by
  have hfits : bytes.length ≤ Config.memSize - s.pc.toNat := by unfold Config.memSize; omega
  exact congrArg (s.mem.load s.pc.toNat) (List.take_of_length_le hfits)

theorem read_placeAtPc_of_lt {k : Nat} (hk : k < bytes.length) :
    (s.placeAtPc bytes).mem.read (s.pc.toNat + k) = bytes[k] := by
  simp [mem_placeAtPc s hlen, Memory.read_load, hk]

theorem read_placeAtPc_of_outside {a : Nat} (ha : a < s.pc.toNat ∨ s.pc.toNat + bytes.length ≤ a) :
    (s.placeAtPc bytes).mem.read a = s.mem.read a := by
  rw [mem_placeAtPc s hlen, Memory.read_load, dif_neg (by omega)]

/-- Bytes placed at the pc stand at the front of the bytes at the pc. -/
theorem take_bytesAtPc_placeAtPc : (s.placeAtPc bytes).bytesAtPc.take bytes.length = bytes := by
  have hpc : (s.placeAtPc bytes).pc = s.pc := rfl
  refine List.ext_getElem ?_ fun k _ hk => ?_
  · rw [List.length_take, State.bytesAtPc, List.length_map, List.length_range, hpc, Config.memSize]
    omega
  · simp [State.bytesAtPc, hpc, read_placeAtPc_of_lt s hlen hk]

theorem decode_bytesAtPc_placeAtPc {i : Instr} {rest : List Byte} (h : decode bytes = .ok i rest) :
    ∃ more, decode (s.placeAtPc bytes).bytesAtPc = .ok i more := by
  rw [← List.take_append_drop bytes.length (s.placeAtPc bytes).bytesAtPc, take_bytesAtPc_placeAtPc s hlen]
  exact ⟨_, decode_append_of_ok h _⟩

end

section
variable (s : State) (bytes : List Byte)

theorem enabled_placeAtPc : Enabled (s.placeAtPc bytes) := by
  refine ⟨rfl, ?_⟩
  unfold State.hostStopNow State.placeAtPc
  cases s.hostStop <;> rfl

theorem hostStop_tail_placeAtPc : (s.placeAtPc bytes).hostStop.tail = s.hostStop.tail := by
  unfold State.placeAtPc
  cases s.hostStop <;> rfl

end

/-- Settles O26: the placed word is what the decoder reads at the pc, and an Enabled engine runs that. -/
theorem fetchWordIsWhatTheNextStepRuns : Obligations.FetchWordIsWhatTheNextStepRuns := by
  intro s nbits w i hword hpc
  obtain ⟨rest, hdec⟩ := decode_of_decodeTableWord hword
  have hlen : s.pc.toNat + (wordBytes nbits w).length ≤ 256 := hpc
  obtain ⟨more, hmore⟩ := decode_bytesAtPc_placeAtPc s hlen hdec
  exact ⟨stepExecutesTheDecodedInstruction _ i more (enabled_placeAtPc s _) hmore,
    fun _ ha => read_placeAtPc_of_outside s hlen ha, rfl, hostStop_tail_placeAtPc s _⟩

end Sys2Proof.Machine
end

section
/-! PROOF. The assembler on a line that `renderInstr` writes (30_encoding.md R72): the line's words are the mnemonic
and the operands as they were written, and each of them names what it was written for. -/

namespace Sys2Proof

/-! ### The words of a line -/

/-- The characters that end a word. -/
def delimiters : List Char := [';', ' ', '\t', ',', '(', ')']

/-- A word: characters that end none. -/
abbrev IsWord (w : List Char) : Prop := ∀ c ∈ w, c ∉ delimiters

/-- The characters of a word go to the word being read. -/
theorem tokensFrom_word {w : List Char} (hw : IsWord w) (cs : List Char) : ∀ acc : List Char,
    tokensFrom acc (w ++ cs) = tokensFrom (acc ++ w) cs := by
  induction w with
  | nil => simp
  | cons c w ih =>
    intro acc
    have hc : c ∉ delimiters := hw c List.mem_cons_self
    have hrest : IsWord w := fun d hd => hw d (List.mem_cons_of_mem c hd)
    simp only [delimiters, List.mem_cons, List.not_mem_nil, or_false, not_or] at hc
    obtain ⟨h1, h2, h3, h4, h5, h6⟩ := hc
    rw [List.cons_append, tokensFrom, if_neg h1, if_neg h2, if_neg h3, if_neg h4, if_neg h5, if_neg h6, ih hrest,
      List.append_assoc, List.singleton_append]

theorem endWord_of_ne_nil {w : List Char} (hne : w ≠ []) : endWord w = [.word w] := by
  cases w with
  | nil => exact absurd rfl hne
  | cons c w => rfl

section
variable {w : List Char} (hw : IsWord w) (hne : w ≠ [])
include hw hne

theorem tokensFrom_single_word : tokensFrom [] w = [.word w] := by
  have h := tokensFrom_word hw [] []
  rwa [List.append_nil, List.nil_append, tokensFrom, endWord_of_ne_nil hne] at h

theorem tokensFrom_word_blank (cs : List Char) : tokensFrom [] (w ++ ' ' :: cs) = .word w :: tokensFrom [] cs := by
  rw [tokensFrom_word hw, List.nil_append, tokensFrom, endWord_of_ne_nil hne]
  rfl

theorem tokensFrom_word_comma_blank (cs : List Char) :
    tokensFrom [] (w ++ ',' :: ' ' :: cs) = .word w :: .comma :: tokensFrom [] cs := by
  rw [tokensFrom_word hw, List.nil_append, tokensFrom, endWord_of_ne_nil hne]
  rfl

end

/-! ### What the words of a rendered line name -/

theorem Mnemonic.isWord_name (m : Mnemonic) : IsWord m.name := by
  cases m <;> simp [IsWord, Mnemonic.name, delimiters]

theorem Mnemonic.name_ne_nil (m : Mnemonic) : m.name ≠ [] := by cases m <;> decide

theorem mnemonicNamed_name (m : Mnemonic) : mnemonicNamed m.name = some m := by cases m <;> decide

/-- The digit of each value below 16 is no delimiter and has that value. -/
theorem hexDigit_spec : ∀ n : Fin 16,
    (hexDigits[n.val]?).getD '?' ∉ delimiters ∧ hexValue ((hexDigits[n.val]?).getD '?') = some n.val := by decide

theorem isWord_renderReg {b : Byte} (hb : b.toNat < 8) : IsWord (renderReg b) := by
  intro c hc
  simp only [renderReg, List.mem_cons, List.not_mem_nil, or_false] at hc
  obtain rfl | rfl := hc
  · decide
  · exact (hexDigit_spec ⟨b.toNat, by omega⟩).1

theorem regNamed_renderReg {b : Byte} (hb : b.toNat < 8) : regNamed (renderReg b) = some b := by
  have hall : ∀ r : Fin 8, regNamed (renderReg (BitVec.ofNat 8 r)) = some (BitVec.ofNat 8 r) := by decide
  have hr := hall ⟨b.toNat, hb⟩
  rwa [BitVec.ofNat_toNat, BitVec.setWidth_eq] at hr

theorem isWord_renderImm (b : Byte) : IsWord (renderImm b) := by
  have hhigh := (hexDigit_spec ⟨b.toNat / 16, by have := b.isLt; omega⟩).1
  have hlow := (hexDigit_spec ⟨b.toNat % 16, Nat.mod_lt _ (by decide)⟩).1
  intro c hc
  simp only [renderImm, List.mem_cons, List.not_mem_nil, or_false] at hc
  obtain rfl | rfl | rfl | rfl := hc
  · decide
  · decide
  · exact hhigh
  · exact hlow

/-- An immediate in hexadecimal has the value of its two digits. -/
theorem immNamed_hex (h l : Char) : immNamed ['0', 'x', h, l] =
    (hexValue h).bind fun high => (hexValue l).map fun low => BitVec.ofNat 8 (16 * high + low) := by
  change (match hexValue h, hexValue l with
    | some high, some low => some (BitVec.ofNat 8 (16 * high + low))
    | _, _ => none) = _
  cases hexValue h <;> cases hexValue l <;> rfl

theorem immNamed_renderImm (b : Byte) : immNamed (renderImm b) = some b := by
  have hhigh := (hexDigit_spec ⟨b.toNat / 16, by have := b.isLt; omega⟩).2
  have hlow := (hexDigit_spec ⟨b.toNat % 16, Nat.mod_lt _ (by decide)⟩).2
  rw [renderImm, immNamed_hex, hhigh, hlow]
  simp only [Option.bind_some, Option.map_some, Nat.div_add_mod, BitVec.ofNat_toNat, BitVec.setWidth_eq]

/-! ### A line of each format -/

theorem assembleLine_of_tokens {line : List Char} {t : Token} {ts : List Token} {m : Mnemonic} {ops : List (List Char)}
    {i : Instr} (ht : tokensFrom [] line = t :: ts) (hs : splitTokens (t :: ts) = some (m.name, ops))
    (hi : instrOf m ops = some i) : assembleLine line = some (encode i) := by
  simp [assembleLine, instrOfLine, ht, hs, mnemonicNamed_name, hi]

section
variable {m : Mnemonic} {i : Instr} {a b : Byte}

theorem assembleLine_f0 (hf : m.format = .f0) (hi : buildInstr m [] = some i) :
    assembleLine m.name = some (encode i) :=
  assembleLine_of_tokens (tokensFrom_single_word m.isWord_name m.name_ne_nil) rfl (by simp only [instrOf, hf, hi])

theorem assembleLine_f1r (hf : m.format = .f1r) (ha : a.toNat < 8) (hi : buildInstr m [a] = some i) :
    assembleLine (m.name ++ ' ' :: renderReg a) = some (encode i) := by
  refine assembleLine_of_tokens (tokensFrom_word_blank m.isWord_name m.name_ne_nil _)
    (m := m) (ops := [renderReg a]) ?_ ?_
  · rw [tokensFrom_single_word (isWord_renderReg ha) (List.cons_ne_nil _ _)]
    rfl
  · simp only [instrOf, hf, regNamed_renderReg ha, Option.bind_some, hi]

/-- A line with two operand words. -/
theorem assembleLine_two_operands {w : List Char} (ha : a.toNat < 8) (hw : IsWord w) (hne : w ≠ [])
    (hi : instrOf m [renderReg a, w] = some i) :
    assembleLine (m.name ++ ' ' :: renderReg a ++ ',' :: ' ' :: w) = some (encode i) := by
  rw [List.append_assoc, List.cons_append]
  refine assembleLine_of_tokens (tokensFrom_word_blank m.isWord_name m.name_ne_nil _) ?_ hi
  rw [tokensFrom_word_comma_blank (isWord_renderReg ha) (List.cons_ne_nil _ _), tokensFrom_single_word hw hne]
  rfl

theorem assembleLine_f2rr (hf : m.format = .f2rr) (ha : a.toNat < 8) (hb : b.toNat < 8)
    (hi : buildInstr m [a, b] = some i) :
    assembleLine (m.name ++ ' ' :: renderReg a ++ ',' :: ' ' :: renderReg b) = some (encode i) := by
  refine assembleLine_two_operands ha (isWord_renderReg hb) (List.cons_ne_nil _ _) ?_
  simp only [instrOf, hf, regNamed_renderReg ha, regNamed_renderReg hb, Option.bind_some, hi]

theorem assembleLine_f2ri (hf : m.format = .f2ri) (ha : a.toNat < 8) (hi : buildInstr m [a, b] = some i) :
    assembleLine (m.name ++ ' ' :: renderReg a ++ ',' :: ' ' :: renderImm b) = some (encode i) := by
  refine assembleLine_two_operands ha (isWord_renderImm b) (List.cons_ne_nil _ _) ?_
  simp only [instrOf, hf, regNamed_renderReg ha, immNamed_renderImm, Option.bind_some, hi]

end

/-- Settles O10: the instruction's format is that of its line, and being well formed gives each register operand a
name. -/
theorem assemblingAWrittenInstructionGivesItsBytes : Obligations.AssemblingAWrittenInstructionGivesItsBytes := by
  intro i hi
  simp only [Instr.wellFormed, List.all_eq_true, Machine.regByteOk_iff] at hi
  cases i with
  | hlt => exact assembleLine_f0 (m := .hlt) rfl rfl
  | ldi a imm => exact assembleLine_f2ri (m := .ldi) rfl (hi a List.mem_cons_self) rfl
  | prn a | push a | pop a | inc a | dec a | not a =>
    exact assembleLine_f1r rfl (hi a List.mem_cons_self) rfl
  | add a b | sub a b | mul a b | div a b | mod a b | and a b | or a b | xor a b | shl a b | shr a b =>
    have hb : b.toNat < 8 := hi b (List.mem_cons_of_mem _ List.mem_cons_self)
    exact assembleLine_f2rr rfl (hi a List.mem_cons_self) hb rfl

end Sys2Proof
end
